-- ==== Sys2Proof/Word.lean ====
section
/-! DEFINITION. The words of the unit (spec/00_scope.md R10, R11): bytes, 16-bit big-endian half-words and 32-bit
channel patterns, all unsigned bit strings. -/

namespace Sys2Proof

/-- A byte: 8 bits, bit 0 the least significant (R10). -/
abbrev Byte := BitVec 8

/-- A 16-bit half-word: `LEN`, `RLEN`, an offset, a status word. -/
abbrev Half := BitVec 16

/-- A 32-bit channel pattern `W` (R80). -/
abbrev Pattern := BitVec 32

end Sys2Proof
end

