-- ==== Sys2Proof/Machine/Operands.lean ====
section
/-! DEFINITION. Fixed values (spec/00_scope.md R8) and the operand forms: the fields of `CMD`, big-endian
half-words and patterns, the `LEN` field of a request, and requests read out of a table word. -/

namespace Sys2Proof.Machine

/-- `CRC_POLY`, the generator x^8 + x^5 + x^4 + 1 with the x^8 term implicit (R3, R8). -/
def crcPoly : Byte := 0x31#8

/-- `CRC_INIT`, the accumulator every checksum starts from (R8, R26). -/
def crcInit : Byte := 0xFF#8

/-- `STATUS_TRUE`, the one status word that means measuring (R8, R90). -/
def statusTrue : Half := 0x0001#16

/-- `GROUP`, the bytes of a group (R8). -/
def groupBytes : Nat := 3

/-- `MEAS_LEN`, the bytes of a measurement (R8). -/
def measLen : Nat := 60

/-- `CHANNELS`, the channels of a measurement (R8). -/
def channelCount : Nat := 10

/-- Bytes of one channel on the wire, two groups (R8, R16). -/
def channelBytesIn : Nat := 6

/-- `RSV`, the reserved field `CMD[7:4]` (spec/30_encoding.md R48). -/
def rsvField (cmd : Byte) : BitVec 4 := cmd.extractLsb' 4 4

/-- `OP`, the operation code `CMD[3:0]` (R48). -/
def opField (cmd : Byte) : BitVec 4 := cmd.extractLsb' 0 4

/-- `{hi, lo}`: the 16-bit value of two bytes, the more significant first (R11, R33, R34). -/
def half (hi lo : Byte) : Half := hi ++ lo

/-- `[h[15:8], h[7:0]]` of a half-word: the port's big-endian order (R34). -/
def halfBytes (h : Half) : List Byte := [h.extractLsb' 8 8, h.extractLsb' 0 8]

/-- `W = {b3, b2, b1, b0}`: a channel pattern of its four bytes, most significant first (R35, R80). -/
def pattern (hi0 hi1 lo0 lo1 : Byte) : Pattern := hi0 ++ hi1 ++ lo0 ++ lo1

/-- The four bytes of a pattern as the payload holds them, most significant first (R35). -/
def patternBytes (w : Pattern) : List Byte :=
  [w.extractLsb' 24 8, w.extractLsb' 16 8, w.extractLsb' 8 8, w.extractLsb' 0 8]

/-- The `LEN` field of the request bytes received so far, once three of them have arrived (R18, R47). -/
def lenField : List Byte → Option Nat
  | _ :: hi :: lo :: _ => some (half hi lo).toNat
  | _ => none

/-- The test of R28: at least three bytes have arrived and there are exactly `3 + LEN` of them. -/
def requestComplete (rx : List Byte) : Bool :=
  match lenField rx with
  | some len => rx.length == 3 + len
  | none => false

/-- Byte `k` of a table word: bits `8k + 7` to `8k` of its low `nbits` bits, every bit above them 0. -/
def tableByte (nbits w k : Nat) : Byte := BitVec.ofNat 8 ((w % 2 ^ nbits) >>> (8 * k))

/-- The request a table word stands for: `CMD`, the two `LEN` bytes, and as many operand bytes as they say (R47,
R60). -/
def tableRequest (nbits w : Nat) : List Byte :=
  (List.range (3 + (half (tableByte nbits w 1) (tableByte nbits w 2)).toNat)).map (tableByte nbits w)

end Sys2Proof.Machine
end

