-- ==== Sys2Proof/Syntax.lean ====
section
/-! DEFINITION. The operations of the unit as syntax: one constructor per row of spec/opcode_table.json. Each
carries the operand list `IN` of its request, of whatever length its `LEN` field gave: a wrong length is framed
like any other and is the operation's own error (spec/30_encoding.md R49, R60). -/

namespace Sys2Proof

/-- The seven operations (spec/30_encoding.md R57). -/
inductive Instr where
  /-- `CRC8`, compute a checksum (R66). -/
  | crc8 (ins : List Byte)
  /-- `CRCCHK`, check a group (R67). -/
  | crcchk (ins : List Byte)
  /-- `ENCODE`, build an outbound command frame (R71). -/
  | encode (ins : List Byte)
  /-- `DECPAIRS`, check an inbound frame and extract its pairs (R75). -/
  | decpairs (ins : List Byte)
  /-- `F32REC`, rebuild one channel (R82). -/
  | f32rec (ins : List Byte)
  /-- `DECMEAS`, rebuild a whole measurement (R83). -/
  | decmeas (ins : List Byte)
  /-- `DECSTAT`, decode a status response (R90). -/
  | decstat (ins : List Byte)
deriving DecidableEq, Repr

/-- The operand list `IN` of a request (spec/00_scope.md R12). -/
def Instr.operands : Instr → List Byte
  | .crc8 ins => ins
  | .crcchk ins => ins
  | .encode ins => ins
  | .decpairs ins => ins
  | .f32rec ins => ins
  | .decmeas ins => ins
  | .decstat ins => ins

end Sys2Proof
end

