-- ==== Sys2Proof/WellFormed.lean ====
section
/-! DEFINITION. Which syntax terms are requests (`WellFormed`), and which lengths an operation takes
(`LengthFits`, spec/30_encoding.md R57). -/

namespace Sys2Proof

/-- A term is well formed when its operand count fits the 16-bit `LEN` field (spec/30_encoding.md R47). Nothing
else is required of a request: an operation rejects a length it cannot take by its response (R60). -/
abbrev Instr.WellFormed (i : Instr) : Prop := i.operands.length ≤ 65535

/-- The column "`LEN` needed" of R57. It decides which requests can answer `OK`, not which are well formed. -/
def Instr.LengthFits : Instr → Bool
  | .crc8 ins => ins.length == 2
  | .crcchk ins => ins.length == 3
  | .encode ins => 2 ≤ ins.length && (ins.length - 2) % 2 == 0
  | .decpairs ins => ins.length % 3 == 0
  | .f32rec ins => ins.length == 6
  | .decmeas ins => ins.length == 60
  | .decstat ins => ins.length == 3

end Sys2Proof
end

