-- ==== Sys2Proof/Decode.lean ====
section
/-! DEFINITION. The decoder of request bytes and the encoder (spec/30_encoding.md R47, R48, R57, R58, R60), and the
opcode table as data. -/

namespace Sys2Proof

open Machine

/-- Why the decoder rejects bytes. -/
inductive Reject where
  /-- Fewer than `3 + LEN` bytes: no request yet (R30, R47). -/
  | truncated
  /-- `CMD[7:4]` is not `0000` (R58). -/
  | reservedRsv (rsv : BitVec 4)
  /-- `CMD[3:0]` is 0x0 or in 0x8 to 0xF (R58). -/
  | reservedOp (op : BitVec 4)
deriving DecidableEq, Repr

/-- What the decoder answers: an instruction with the bytes after its request, or a rejection by name. -/
inductive Decoded where
  | ok (i : Instr) (rest : List Byte)
  | rejected (why : Reject)
deriving DecidableEq, Repr

/-- spec/opcode_table.json: mnemonic, match and mask of each row. -/
def opcodeTable : List (String × Byte × Byte) :=
  [("CRC8", 0x01#8, 0xFF#8), ("CRCCHK", 0x02#8, 0xFF#8), ("ENCODE", 0x03#8, 0xFF#8), ("DECPAIRS", 0x04#8, 0xFF#8),
   ("F32REC", 0x05#8, 0xFF#8), ("DECMEAS", 0x06#8, 0xFF#8), ("DECSTAT", 0x07#8, 0xFF#8)]

/-- The row's mnemonic (R57). -/
def Instr.mnemonic : Instr → String
  | .crc8 _ => "CRC8"
  | .crcchk _ => "CRCCHK"
  | .encode _ => "ENCODE"
  | .decpairs _ => "DECPAIRS"
  | .f32rec _ => "F32REC"
  | .decmeas _ => "DECMEAS"
  | .decstat _ => "DECSTAT"

/-- The operation of an `OP` value, by R57; the nine other values of the field are illegal (R58). -/
def decodeOp (op : BitVec 4) (ins : List Byte) : Option Instr :=
  match op.toNat with
  | 1 => some (.crc8 ins)
  | 2 => some (.crcchk ins)
  | 3 => some (.encode ins)
  | 4 => some (.decpairs ins)
  | 5 => some (.f32rec ins)
  | 6 => some (.decmeas ins)
  | 7 => some (.decstat ins)
  | _ => none

/-- The instruction of a `CMD` byte and operand list: `RSV` is tested before `OP` (R54). -/
def decodeCmd (cmd : Byte) (ins rest : List Byte) : Decoded :=
  if rsvField cmd ≠ 0#4 then .rejected (.reservedRsv (rsvField cmd))
  else
    match decodeOp (opField cmd) ins with
    | some i => .ok i rest
    | none => .rejected (.reservedOp (opField cmd))

/-- The decoder, total on every byte list: the length of a request is learned from `LEN` alone (R60). -/
def decode : List Byte → Decoded
  | cmd :: hi :: lo :: rest =>
    let len := (half hi lo).toNat
    if rest.length < len then .rejected .truncated
    else decodeCmd cmd (rest.take len) (rest.drop len)
  | _ => .rejected .truncated

/-- The `OP` value of an operation (R57). -/
def Instr.opCode : Instr → BitVec 4
  | .crc8 _ => 0x1#4
  | .crcchk _ => 0x2#4
  | .encode _ => 0x3#4
  | .decpairs _ => 0x4#4
  | .f32rec _ => 0x5#4
  | .decmeas _ => 0x6#4
  | .decstat _ => 0x7#4

/-- The `CMD` byte: `RSV` = 0000, then `OP` (R48). -/
def Instr.cmdByte (i : Instr) : Byte := 0x0#4 ++ i.opCode

/-- The request bytes of an instruction (R47). For a well-formed one `LEN` is its operand count. -/
def encode (i : Instr) : List Byte :=
  i.cmdByte :: halfBytes (BitVec.ofNat 16 i.operands.length) ++ i.operands

/-- The instruction the decoder reads from a table word laid out as the port takes it, first byte first (log 14). -/
def decodeTableWord (nbits w : Nat) : Option Instr :=
  match decode (tableRequest nbits w) with
  | .ok i [] => some i
  | .ok _ (_ :: _) => none
  | .rejected _ => none

end Sys2Proof
end

