-- ==== Sys2Proof/Config.lean ====
section
/-! DEFINITION. What an implementation fixes and the spec leaves open (spec/00_scope.md R9): `IN_CAP` and
`LATENCY`. Neither is state (R17). -/

namespace Sys2Proof.Config

/-- The free part of `IN_CAP`: nothing constrains it (log 2, DESIGN CHOICE). -/
opaque inCapFree : Nat

/-- `IN_CAP`, the largest operand length the unit accepts: any value of the range 60 to 43690 that R9 gives, and
which one is not known. The two literals make the range 60 to 60 + 43630 = 43690. -/
def inCap : Nat := inCapFree % 43631 + 60

/-- `LATENCY`, the response time of an implementation. No rule reads it (R9, R116; log 7). -/
opaque latency : Nat

end Sys2Proof.Config
end

