-- ==== Sys2Proof/Machine/State.lean ====
section
/-! DEFINITION. The state of the unit and of its port (spec/10_state.md R17, R31), the reasons a step stops, and the
state after reset. -/

namespace Sys2Proof.Machine

/-- One event at the port: the host writes a byte (R28), the host reads a byte (R29), or the unit is reset
(spec/70_reset_and_hazards.md R107). -/
inductive PortEvent where
  | write (b : Byte)
  | read
  | reset
deriving DecidableEq, Repr

/-- The state. `rx` and `tx` are all the state the unit has (R17); `pending` and `received` are the model's own and
stand for the host's side of the port (log 1, DESIGN CHOICE). -/
structure State where
  /-- The bytes of the request received so far (R18). -/
  rx : List Byte
  /-- The bytes of the response the host has not read yet (R19). -/
  tx : List Byte
  /-- The port events still to come, oldest first. -/
  pending : List PortEvent
  /-- The bytes host reads have returned, oldest first (R29). -/
  received : List Byte
deriving DecidableEq, Repr

/-- Why the machine stops with a fault. -/
inductive Fault where
  /-- Raised by a host read while `tx` is empty, which has no move: the read waits (R29, R30; item I6 of
  spec/93_implementation_defined.md, `stuck`). Unsafe for a port that returns a filler byte instead, as D27 says of
itself; safe for one that waits (log 4). -/
  | readWithNoResponse
deriving DecidableEq, Repr

/-- Why a step is refused. -/
inductive Refusal where
  /-- Raised by `exec` for an instruction that has no meaning yet; no arm raises it. Safe. -/
  | notModelled (mnemonic : String)
  /-- Raised by a host write while `tx` is not empty, which has no move (R28, R30, R111; item I5, `refuse`). Unsafe
  for a host that breaks its duty H1, as the spec says of itself: the model has no run for it (log 3). -/
  | writeWhileResponseUnread
deriving DecidableEq, Repr

/-- The state right after reset: `rx` and `tx` empty (R31, R107); no event pending and nothing received (log 1). -/
def State.reset : State := { rx := [], tx := [], pending := [], received := [] }

end Sys2Proof.Machine
end

