-- ==== Sys2Proof/Machine/Flags.lean ====
section
/-! DEFINITION. The unit has no flag that persists (spec/10_state.md R22). An operation's outcome is the status of
its own response: the six codes of spec/30_encoding.md R52. -/

namespace Sys2Proof.Machine

/-- The status names of R52. -/
inductive Status where
  | ok
  | checksumMismatch
  | invalidArgumentLength
  | invalidBufferLength
  | operandLength
  | illegalOperation
deriving DecidableEq, Repr

/-- The `STS` byte of a status (R52). -/
def stsByte : Status → Byte
  | .ok => 0x00#8
  | .checksumMismatch => 0x01#8
  | .invalidArgumentLength => 0x02#8
  | .invalidBufferLength => 0x03#8
  | .operandLength => 0x04#8
  | .illegalOperation => 0x05#8

/-- A boolean result as a payload byte: true is 0x01 and false is 0x00 (R67, R90). -/
def boolByte (b : Bool) : Byte := if b then 0x01#8 else 0x00#8

end Sys2Proof.Machine
end

