-- ==== Sys2Proof/Machine/Ops.lean ====
section
/-! DEFINITION. The shared operations: responses and their bytes (spec/30_encoding.md R51, R53), `respond` and
`raise` (spec/00_scope.md R14), the `IN_CAP` check (R55), and the updates of State. -/

namespace Sys2Proof.Machine

/-- What an operation answers: a status and a payload `OUT` (R51). -/
structure Response where
  sts : Status
  payload : List Byte
deriving DecidableEq, Repr

/-- The response bytes `[S, RLEN[15:8], RLEN[7:0]] ++ O` with `RLEN = length(O)` (R28, R51, R53). -/
def Response.bytes (r : Response) : List Byte :=
  stsByte r.sts :: halfBytes (BitVec.ofNat 16 r.payload.length) ++ r.payload

/-- A success with its payload. -/
def okay (out : List Byte) : Response := { sts := .ok, payload := out }

/-- `raise E()` for every error but a checksum mismatch: an empty payload (R14, R53). -/
def raise (e : Status) : Response := { sts := e, payload := [] }

/-- `raise CHECKSUM_MISMATCH(off)`: the payload is the offset, 16 bits, big-endian (R53, R76). -/
def raiseMismatch (off : Nat) : Response :=
  { sts := .checksumMismatch, payload := halfBytes (BitVec.ofNat 16 off) }

/-- The check of R54 and R55 that stands before every legal operation: more operand bytes than the capacity give
`OPERAND_LENGTH`, whatever the bytes are. -/
def withinCap (cap : Nat) (op : List Byte → Response) (ins : List Byte) : Response :=
  if cap < ins.length then raise .operandLength else op ins

/-- The oldest pending event is taken. -/
def State.afterEvent (s : State) (rest : List PortEvent) : State := { s with pending := rest }

/-- A request byte arrives (R28). -/
def State.pushRx (s : State) (b : Byte) : State := { s with rx := s.rx ++ [b] }

/-- A request completes: `rx` is emptied and `tx` holds the whole response (R28, R38). -/
def State.putResponse (s : State) (r : Response) : State := { s with rx := [], tx := r.bytes }

/-- The host reads the byte `b` from the front of `tx` and `rest` stays (R29). -/
def State.popTx (s : State) (b : Byte) (rest : List Byte) : State :=
  { s with tx := rest, received := s.received ++ [b] }

/-- Reset of the port: both queues are emptied (R107). -/
def State.clearPort (s : State) : State := { s with rx := [], tx := [] }

/-- `respond(S, O)`, errors too: the ONE way a request ends, and the unit's only form of taking an exception. No
cause or address is saved, no mode changes and nothing returns (spec/60_exceptions.md R92, R99, R100). -/
def respond (r : Response) (s : State) : Host.Outcome State Fault Refusal := .next (s.putResponse r)

/-- An operation of the unit with the capacity check before it (R54): the form of every meaning. -/
def serve (op : List Byte → Response) (ins : List Byte) (s : State) : Host.Outcome State Fault Refusal :=
  respond (withinCap Config.inCap op ins) s

/-- A request whose `CMD` byte is illegal: `ILLEGAL_OPERATION` with an empty payload (R58). -/
def illegalRequest (s : State) : Host.Outcome State Fault Refusal := respond (raise .illegalOperation) s

end Sys2Proof.Machine
end

