-- ==== Sys2Proof/Machine/Checksum.lean ====
section
/-! DEFINITION. The checksum function and the operations `CRC8` and `CRCCHK` (spec/40_checksum.md). -/

namespace Sys2Proof.Machine

/-- `shl8(a)`: left shift by one bit, truncated to 8 bits (spec/00_scope.md R11). -/
def shl8 (a : Byte) : Byte := a <<< 1

/-- One of the eight rounds of R63: the high bit is tested before the shift of the same round. -/
def crcRound (acc : Byte) : Byte := if acc.getLsbD 7 then shl8 acc ^^^ crcPoly else shl8 acc

/-- `repeat n` of a round (R15). -/
def crcRounds : Nat → Byte → Byte
  | 0, acc => acc
  | n + 1, acc => crcRounds n (crcRound acc)

/-- `crc_step(acc, b)`: fold one byte into the accumulator (R63). -/
def crcStep (acc b : Byte) : Byte := crcRounds 8 (acc ^^^ b)

/-- `crc8(d0, d1)`: the checksum of a 2-byte chunk, from a fresh accumulator, `d0` before `d1` (R64). -/
def crc8 (d0 d1 : Byte) : Byte := crcStep (crcStep crcInit d0) d1

/-- A group is valid exactly when its checksum byte is the checksum of its data bytes (R65). -/
def groupValid (d0 d1 c : Byte) : Bool := crc8 d0 d1 == c

/-- `CRC8(IN)` (R66). -/
def opCrc8 : List Byte → Response
  | [d0, d1] => okay [crc8 d0 d1]
  | _ => raise .operandLength

/-- `CRCCHK(IN)`: a failed check is a result, not an error (R67). -/
def opCrcchk : List Byte → Response
  | [d0, d1, c] => okay [boolByte (groupValid d0 d1 c)]
  | _ => raise .operandLength

/-- The meaning of `CRC8`. -/
def execCrc8 (ins : List Byte) (s : State) : Host.Outcome State Fault Refusal := serve opCrc8 ins s

/-- The meaning of `CRCCHK`. -/
def execCrcchk (ins : List Byte) (s : State) : Host.Outcome State Fault Refusal := serve opCrcchk ins s

end Sys2Proof.Machine
end

