-- ==== Sys2Proof/Machine/Decoders.lean ====
section
/-! DEFINITION. `F32REC`, `DECMEAS` and `DECSTAT` (spec/42_decoders.md). The unit rebuilds bit patterns and never
computes with them (R80). -/

namespace Sys2Proof.Machine

/-- `F32REC(IN)`: the high half-word's group is checked first; the result is `W`, most significant byte first
(R82, R35). -/
def opF32rec : List Byte → Response
  | [h0, h1, hc, l0, l1, lc] =>
    if ¬ groupValid h0 h1 hc then raiseMismatch 0
    else if ¬ groupValid l0 l1 lc then raiseMismatch 3
    else okay (patternBytes (pattern h0 h1 l0 l1))
  | _ => raise .operandLength

/-- The absolute offset of the first invalid half-word, channel by channel and the high half before the low half,
where the list begins at offset `off` (R83). -/
def firstBadHalf (off : Nat) : List Byte → Option Nat
  | h0 :: h1 :: hc :: l0 :: l1 :: lc :: rest =>
    if ¬ groupValid h0 h1 hc then some off
    else if ¬ groupValid l0 l1 lc then some (off + 3)
    else firstBadHalf (off + channelBytesIn) rest
  | _ => none

/-- The patterns of the channels, in channel order, each most significant byte first (R83, R84). -/
def channelPatterns : List Byte → List Byte
  | h0 :: h1 :: _ :: l0 :: l1 :: _ :: rest => patternBytes (pattern h0 h1 l0 l1) ++ channelPatterns rest
  | _ => []

/-- `DECMEAS(IN)`: all ten patterns or an error and none (R83, R85). -/
def opDecmeas (ins : List Byte) : Response :=
  if ins.length ≠ measLen then raise .operandLength
  else
    match firstBadHalf 0 ins with
    | some off => raiseMismatch off
    | none => okay (channelPatterns ins)

/-- `DECSTAT(IN)`: true iff the big-endian status word is exactly 0x0001; any other validated word is not an error
(R90, R91). -/
def opDecstat : List Byte → Response
  | [v1, v0, c] =>
    if ¬ groupValid v1 v0 c then raiseMismatch 0 else okay [boolByte (half v1 v0 == statusTrue)]
  | _ => raise .operandLength

/-- The meaning of `F32REC`. -/
def execF32rec (ins : List Byte) (s : State) : Host.Outcome State Fault Refusal := serve opF32rec ins s

/-- The meaning of `DECMEAS`. -/
def execDecmeas (ins : List Byte) (s : State) : Host.Outcome State Fault Refusal := serve opDecmeas ins s

/-- The meaning of `DECSTAT`. -/
def execDecstat (ins : List Byte) (s : State) : Host.Outcome State Fault Refusal := serve opDecstat ins s

end Sys2Proof.Machine
end

