-- ==== Sys2Proof/Machine/Framing.lean ====
section
/-! DEFINITION. `ENCODE` and `DECPAIRS` (spec/41_framing.md). -/

namespace Sys2Proof.Machine

/-- The groups `ENCODE` emits for its argument bytes: every pair in order, each followed by its checksum (R71). -/
def encodePairs : List Byte → List Byte
  | a0 :: a1 :: args => a0 :: a1 :: crc8 a0 a1 :: encodePairs args
  | _ => []

/-- `ENCODE(IN)`: the opcode bytes are copied and never interpreted (R71, R72). -/
def opEncode : List Byte → Response
  | h :: l :: args =>
    if args.length % 2 = 1 then raise .invalidArgumentLength else okay (h :: l :: encodePairs args)
  | _ => raise .operandLength

/-- The offset of the first invalid group, in ascending order, where the list begins at offset `off` (R75, R76). -/
def firstBadGroup (off : Nat) : List Byte → Option Nat
  | d0 :: d1 :: c :: rest =>
    if groupValid d0 d1 c then firstBadGroup (off + groupBytes) rest else some off
  | _ => none

/-- The data bytes of every group, in order (R75). -/
def groupData : List Byte → List Byte
  | d0 :: d1 :: _ :: rest => d0 :: d1 :: groupData rest
  | _ => []

/-- `DECPAIRS(IN)`: length, then every group, then the pairs; one invalid group gives no pairs at all (R75). -/
def opDecpairs (ins : List Byte) : Response :=
  if ins.length % groupBytes ≠ 0 then raise .invalidBufferLength
  else
    match firstBadGroup 0 ins with
    | some off => raiseMismatch off
    | none => okay (groupData ins)

/-- The meaning of `ENCODE`. -/
def execEncode (ins : List Byte) (s : State) : Host.Outcome State Fault Refusal := serve opEncode ins s

/-- The meaning of `DECPAIRS`. -/
def execDecpairs (ins : List Byte) (s : State) : Host.Outcome State Fault Refusal := serve opDecpairs ins s

end Sys2Proof.Machine
end

