-- ==== Sys2Proof/Machine/Dispatch.lean ====
section
/-! DEFINITION. One arm per operation (spec/30_encoding.md R54, the case of `exec`). -/

namespace Sys2Proof.Machine

def exec (i : Instr) (s : State) : Host.Outcome State Fault Refusal :=
  match i with
  | .crc8 ins => Sys2Proof.Machine.execCrc8 ins s
  | .crcchk ins => Sys2Proof.Machine.execCrcchk ins s
  | .encode ins => Sys2Proof.Machine.execEncode ins s
  | .decpairs ins => Sys2Proof.Machine.execDecpairs ins s
  | .f32rec ins => Sys2Proof.Machine.execF32rec ins s
  | .decmeas ins => Sys2Proof.Machine.execDecmeas ins s
  | .decstat ins => Sys2Proof.Machine.execDecstat ins s

end Sys2Proof.Machine
end

