-- ==== Sys2Proof/Machine/Port.lean ====
section
/-! DEFINITION. The port steps (spec/10_state.md R28, R29; spec/70_reset_and_hazards.md R107). -/

namespace Sys2Proof.Machine

/-- A complete request is served: a legal one by its operation, an illegal `CMD` byte by `ILLEGAL_OPERATION` (R54,
R58). A list that is not one whole request (which R28 never hands over) leaves the unit waiting (R30). -/
def serveRequest (request : List Byte) (s : State) : Host.Outcome State Fault Refusal :=
  match decode request with
  | .ok i _ => exec i s
  | .rejected (.reservedRsv _) => illegalRequest s
  | .rejected (.reservedOp _) => illegalRequest s
  | .rejected .truncated => .next s

/-- `HostWrite(b)` (R28): no move while a response is unread; the byte that completes a request has the request
served in the same step (R27, R38). -/
def hostWrite (b : Byte) (s : State) : Host.Outcome State Fault Refusal :=
  match s.tx with
  | _ :: _ => .refused .writeWhileResponseUnread
  | [] =>
    if requestComplete (s.rx ++ [b]) then serveRequest (s.rx ++ [b]) (s.pushRx b) else .next (s.pushRx b)

/-- `HostRead()` (R29): the front byte of `tx` goes to the host; no move while `tx` is empty. -/
def hostRead (s : State) : Host.Outcome State Fault Refusal :=
  match s.tx with
  | [] => .fault .readWithNoResponse
  | b :: rest => .next (s.popTx b rest)

/-- Reset of the unit, between any two port steps (R107). -/
def portReset (s : State) : Host.Outcome State Fault Refusal := .next s.clearPort

/-- One port event. -/
def portEvent (e : PortEvent) (s : State) : Host.Outcome State Fault Refusal :=
  match e with
  | .write b => hostWrite b s
  | .read => hostRead s
  | .reset => portReset s

/-- `s` with a whole request at hand, one byte short: all but its last byte stand in `rx`, no response is unread,
and the host's next event writes the last byte (log 6). -/
def loadRequest (request : List Byte) (s : State) : State :=
  match request.getLast? with
  | some b => { s with rx := request.dropLast, tx := [], pending := .write b :: s.pending }
  | none => s

end Sys2Proof.Machine
end

