-- ==== Sys2Proof/Machine/Step.lean ====
section
/-! DEFINITION. One step of the machine: the oldest pending port event. -/

namespace Sys2Proof.Machine

/-- One step takes the oldest pending event; with none pending the unit waits, unchanged (R30, R108; log 5). -/
def step (s : State) : Host.Outcome State Fault Refusal :=
  match s.pending with
  | [] => .next s
  | e :: rest => portEvent e (s.afterEvent rest)

/-- `s` with the table word's request at hand, so that the very next step runs it (log 6). -/
def State.withFetchWord (s : State) (nbits w : Nat) : State := loadRequest (tableRequest nbits w) s

end Sys2Proof.Machine
end

