-- ==== Sys2Proof/Machine/Reading.lean ====
section
/-! DEFINITION. What an observer reads from a response: the channel map of `DECMEAS` (spec/42_decoders.md R84) and the
binary32 reading of a pattern (R81, which the spec marks as general knowledge; log 12). No step of the machine uses
anything of this file (R80). -/

namespace Sys2Proof.Machine

/-- The ten channels, in the order of R84. The names and units are labels. -/
inductive Channel where
  | pm1Mass
  | pm2_5Mass
  | pm4Mass
  | pm10Mass
  | pm0_5Count
  | pm1Count
  | pm2_5Count
  | pm4Count
  | pm10Count
  | typicalSize
deriving DecidableEq, Repr

/-- The number `i` of a channel (R84). -/
def channelIndex : Channel → Nat
  | .pm1Mass => 0
  | .pm2_5Mass => 1
  | .pm4Mass => 2
  | .pm10Mass => 3
  | .pm0_5Count => 4
  | .pm1Count => 5
  | .pm2_5Count => 6
  | .pm4Count => 7
  | .pm10Count => 8
  | .typicalSize => 9

/-- The name column of R84. -/
def channelName : Channel → String
  | .pm1Mass => "pm1_mass"
  | .pm2_5Mass => "pm2_5_mass"
  | .pm4Mass => "pm4_mass"
  | .pm10Mass => "pm10_mass"
  | .pm0_5Count => "pm0_5_count"
  | .pm1Count => "pm1_count"
  | .pm2_5Count => "pm2_5_count"
  | .pm4Count => "pm4_count"
  | .pm10Count => "pm10_count"
  | .typicalSize => "typical_size"

/-- The unit column of R84. -/
def channelUnit : Channel → String
  | .pm1Mass | .pm2_5Mass | .pm4Mass | .pm10Mass => "µg/m³"
  | .pm0_5Count | .pm1Count | .pm2_5Count | .pm4Count | .pm10Count => "particles/cm³"
  | .typicalSize => "µm"

/-- The pattern of channel `c` in a payload: `OUT[4i..4i+4]`, most significant byte first (R84). -/
def channelPattern (payload : List Byte) (c : Channel) : Option Pattern :=
  match (payload.drop (4 * channelIndex c)).take 4 with
  | [b3, b2, b1, b0] => some (pattern b3 b2 b1 b0)
  | _ => none

/-- The value classes of R81. A finite reading keeps its sign beside its exact magnitude, so that negative zero is
not zero. -/
inductive FloatReading where
  | infinity (negative : Bool)
  | nan (quiet : Bool) (payload : BitVec 23)
  | finite (negative : Bool) (magnitude : ℚ)
deriving DecidableEq, Repr

/-- `s = W[31]` (R81). -/
def signBit (w : Pattern) : Bool := w.getLsbD 31

/-- `e = W[30:23]` (R81). -/
def exponentField (w : Pattern) : BitVec 8 := w.extractLsb' 23 8

/-- `f = W[22:0]` (R81). -/
def fractionField (w : Pattern) : BitVec 23 := w.extractLsb' 0 23

/-- The binary32 reading of a pattern (R81). -/
def floatReading (w : Pattern) : FloatReading :=
  let e := (exponentField w).toNat
  let f := fractionField w
  if e = 255 then
    if f = 0#23 then .infinity (signBit w) else .nan (f.getLsbD 22) f
  else if e = 0 then .finite (signBit w) ((2 : ℚ) ^ (-126 : ℤ) * ((f.toNat : ℚ) / 2 ^ 23))
  else .finite (signBit w) ((2 : ℚ) ^ ((e : ℤ) - 127) * (1 + (f.toNat : ℚ) / 2 ^ 23))

end Sys2Proof.Machine
end

