-- ==== Sys2Proof/Safety.lean ====
section
/-! DEFINITION. The terms statements use: legal responses, the port's invariant, and host events that keep the host's
duties (spec/70_reset_and_hazards.md R111, R112). -/

namespace Sys2Proof.Machine

/-- The unit is idle: both queues are empty (spec/60_exceptions.md R106). -/
abbrev State.Idle (s : State) : Prop := s.rx = [] ∧ s.tx = []

/-- What R52, R53 and R56 say of every response: `RLEN` holds the payload's length, a checksum mismatch carries the
two bytes of an offset, and every other error carries nothing. -/
abbrev Response.Legal (r : Response) : Prop :=
  r.payload.length ≤ 65535 ∧ (r.sts = .checksumMismatch → r.payload.length = 2) ∧
    (r.sts = .ok ∨ r.sts = .checksumMismatch ∨ r.payload = [])

/-- The bytes received are not a whole request yet: fewer than three, or fewer than `3 + LEN` (R18, R28). -/
def RequestOpen (rx : List Byte) : Prop := ∀ len, lenField rx = some len → rx.length < 3 + len

/-- Validity of the group whose first byte stands at offset `off` of an operand list (R16, R65). -/
def groupValidAt (ins : List Byte) (off : Nat) : Bool :=
  match ins.drop off with
  | d0 :: d1 :: c :: _ => groupValid d0 d1 c
  | _ => false

/-- Channel `i` of an operand list, `IN[6i..6i+6]` (R16). -/
def lane (ins : List Byte) (i : Nat) : List Byte := (ins.drop (6 * i)).take 6

/-- Lines 3 and 4 of R97: the error of a length the operation cannot take, by the causes R93 lists. -/
def lengthError : Instr → Option Status
  | .crc8 ins => if ins.length = 2 then none else some .operandLength
  | .crcchk ins => if ins.length = 3 then none else some .operandLength
  | .encode ins =>
    if ins.length < 2 then some .operandLength
    else if (ins.length - 2) % 2 = 1 then some .invalidArgumentLength else none
  | .decpairs ins => if ins.length % 3 = 0 then none else some .invalidBufferLength
  | .f32rec ins => if ins.length = 6 then none else some .operandLength
  | .decmeas ins => if ins.length = 60 then none else some .operandLength
  | .decstat ins => if ins.length = 3 then none else some .operandLength

/-- The offsets of the groups an operation checks, in the order it checks them (R75, R82, R83, R90); `CRC8`,
`CRCCHK` and `ENCODE` raise no checksum mismatch (R93). -/
def checkedOffsets : Instr → List Nat
  | .crc8 _ => []
  | .crcchk _ => []
  | .encode _ => []
  | .decpairs ins => (List.range (ins.length / 3)).map (3 * ·)
  | .f32rec _ => [0, 3]
  | .decmeas _ => (List.range 20).map (3 * ·)
  | .decstat _ => [0]

/-- The error a legal request reports, the first that applies in the order of R97 (lines 2 to 5), if any does. -/
def expectedError (cap : Nat) (i : Instr) : Option Response :=
  if cap < i.operands.length then some (raise .operandLength)
  else
    match lengthError i with
    | some e => some (raise e)
    | none => ((checkedOffsets i).find? fun off => !groupValidAt i.operands off).map raiseMismatch

/-- The column "`RLEN` on `OK`" of R57. -/
def okLength : Instr → Nat
  | .crc8 _ => 1
  | .crcchk _ => 1
  | .encode ins => 2 + 3 * ((ins.length - 2) / 2)
  | .decpairs ins => 2 * ins.length / 3
  | .f32rec _ => 4
  | .decmeas _ => 40
  | .decstat _ => 1

/-- The bytes are exactly one whole request (host duty H2, R112). -/
abbrev WholeRequest (request : List Byte) : Prop := requestComplete request = true

/-- The response bytes the unit gives to a whole request, as it gives them right after reset. -/
def responseTo (request : List Byte) : List Byte :=
  match serveRequest request State.reset with
  | .next t => t.tx
  | .fault _ => []
  | .refused _ => []

/-- `tx` is the unread rest of the one response in flight: with what the host has read of it, which stands at the end
of `received` (the model's own field, log 1), it is the whole response of some whole request, and that response is
legal (R38, R52, R53). -/
def UnreadRest (s : State) : Prop :=
  ∃ (request read : List Byte) (r : Response), WholeRequest request ∧ responseTo request = r.bytes ∧ r.Legal ∧
    read <:+ s.received ∧ read ++ s.tx = r.bytes

/-- The invariant of the port: a request in `rx` is always still open, a request is never taken in while a response
is unread, and what `tx` holds is always the unread rest of the legal response to a whole request (R18, R19, R28, R29,
R38, R52, R53). -/
structure PortInv (s : State) : Prop where
  rxOpen : RequestOpen s.rx
  oneInFlight : s.tx ≠ [] → s.rx = []
  txUnread : s.tx = [] ∨ UnreadRest s

/-- One request as a host that keeps its duties makes it: every byte is written, then the whole response is read,
before anything else (host duties H1 and H2, R111, R112). -/
def transaction (request : List Byte) : List PortEvent :=
  request.map .write ++ List.replicate (responseTo request).length .read

/-- A sequence of requests, each answered and read before the next (R111). -/
def session (requests : List (List Byte)) : List PortEvent := requests.flatMap transaction

end Sys2Proof.Machine
end

