-- ==== Sys2Proof/Certificates/Slice0/Obligations.lean ====
section
/-! DEFINITION. The statements about the unit. A response is written as its bytes: `STS`, the two bytes of `RLEN`,
the payload (spec/30_encoding.md R51). Nothing rests on a value of `IN_CAP`: only on the range R9 gives. -/

open Sys2Proof Sys2Proof.Machine

/-! ### Reset and the port -/

/-- R107: reset empties both queues, from any state; the state after reset has them empty. That the host's events and
its received bytes stay is the model's choice (logs 1 and 17). -/
def Obligations.ResetEmptiesThePort : Prop :=
  State.reset.rx = [] ∧ State.reset.tx = [] ∧
    ∀ (s : State) (evs : List PortEvent), s.pending = .reset :: evs →
      step s = .next { s with rx := [], tx := [], pending := evs }

/-- R28: a host write appends its byte; while the request is open that is all, and the byte that makes it
`3 + LEN` long has it served in the same step: `tx` is `[S, R[15:8], R[7:0]] ++ O` and `rx` is empty. Which response
`r` it is, the other statements say; here it is the one `serveRequest` gives to those bytes in every state. -/
def Obligations.HostWriteStoresOrServes : Prop :=
  ∀ (s : State) (b : Byte) (evs : List PortEvent), s.pending = .write b :: evs → s.tx = [] →
    (RequestOpen (s.rx ++ [b]) → step s = .next { s with rx := s.rx ++ [b], pending := evs }) ∧
    (∀ (cmd hi lo : Byte) (ins : List Byte), s.rx ++ [b] = cmd :: hi :: lo :: ins →
      ins.length = 256 * hi.toNat + lo.toNat →
      ∃ r : Response,
        (∀ u : State, serveRequest (cmd :: hi :: lo :: ins) u = .next { u with rx := [], tx := r.bytes }) ∧
        r.bytes = [stsByte r.sts, BitVec.ofNat 8 (r.payload.length / 256), BitVec.ofNat 8 r.payload.length] ++ r.payload ∧
        step s = .next { s with rx := [], tx := r.bytes, pending := evs })

/-- A step runs the decoded instruction: when the byte the host writes makes the received bytes the request of `i`,
the step is `exec i` in the state in which the byte has arrived and its event is taken (R28, R54; the events are the
model's, log 1). -/
def Obligations.StepRunsTheDecodedInstruction : Prop :=
  ∀ (s : State) (b : Byte) (evs : List PortEvent) (i : Instr), s.pending = .write b :: evs → s.tx = [] →
    decode (s.rx ++ [b]) = .ok i [] →
    step s = exec i { s with rx := s.rx ++ [b], pending := evs }

/-- A request with `LEN` = 0 completes at its third byte (R28). -/
def Obligations.EmptyRequestCompletesAtItsThirdByte : Prop :=
  ∀ (s : State) (cmd : Byte) (evs : List PortEvent), s.rx = [cmd, 0x00#8] → s.tx = [] →
    s.pending = .write 0x00#8 :: evs →
    ∃ t : State, step s = .next t ∧ t.rx = [] ∧ 3 ≤ t.tx.length ∧ t.pending = evs

/-- R29: a host read takes the front byte of `tx`; while `tx` is empty it has no move (the model's name for that is
the fault `readWithNoResponse`, log 4). -/
def Obligations.HostReadTakesTheFrontByte : Prop :=
  ∀ (s : State) (evs : List PortEvent), s.pending = .read :: evs →
    (s.tx = [] → step s = .fault .readWithNoResponse) ∧
    (∀ (b : Byte) (bs : List Byte), s.tx = b :: bs →
      step s = .next { s with tx := bs, received := s.received ++ [b], pending := evs })

/-- R30: a host write while `tx` is not empty and a host read while `tx` is empty have no move (the model stops by
name, logs 3 and 4), and a request that stays open has no response: the unit waits. -/
def Obligations.StepsWithNoMove : Prop :=
  (∀ (s : State) (b : Byte) (evs : List PortEvent), s.pending = .write b :: evs → s.tx ≠ [] →
    step s = .refused .writeWhileResponseUnread) ∧
  (∀ (s : State) (evs : List PortEvent), s.pending = .read :: evs → s.tx = [] →
    step s = .fault .readWithNoResponse) ∧
  (∀ (s : State) (b : Byte) (evs : List PortEvent), s.pending = .write b :: evs → s.tx = [] →
    RequestOpen (s.rx ++ [b]) → ∃ t : State, step s = .next t ∧ t.tx = []) ∧
  (∀ s : State, s.pending = [] → step s = .next s)

/-- R58: a complete request with `RSV` not 0000, or `OP` 0x0 or at least 0x8, answers `ILLEGAL_OPERATION` with an
empty payload, whatever its operand bytes are, and they are consumed; 7 of the 256 `CMD` values are legal. -/
def Obligations.IllegalCommandsAnswerIllegalOperation : Prop :=
  (∀ (s : State) (b : Byte) (evs : List PortEvent) (cmd hi lo : Byte) (ins : List Byte),
    s.pending = .write b :: evs → s.tx = [] → s.rx ++ [b] = cmd :: hi :: lo :: ins →
    ins.length = 256 * hi.toNat + lo.toNat →
    rsvField cmd ≠ 0x0#4 ∨ opField cmd = 0x0#4 ∨ 0x8#4 ≤ opField cmd →
    step s = .next { s with rx := [], tx := [0x05#8, 0x00#8, 0x00#8], pending := evs }) ∧
  (∀ (cmd : Byte) (ins rest : List Byte),
    (∃ i : Instr, decodeCmd cmd ins rest = .ok i rest) ↔ 0x01#8 ≤ cmd ∧ cmd ≤ 0x07#8) ∧
  ((List.range 256).filter fun n => 0x01#8 ≤ BitVec.ofNat 8 n ∧ BitVec.ofNat 8 n ≤ 0x07#8).length = 7

/-- The very next step runs the request that `withFetchWord` puts at hand (the model's own way in, log 6). -/
def Obligations.FetchedWordRunsNext : Prop :=
  ∀ (s : State) (nbits w : Nat) (i : Instr), decodeTableWord nbits w = some i →
    step (s.withFetchWord nbits w) = exec i { s with rx := tableRequest nbits w, tx := [] }

/-! ### The checksum -/

/-- R3, R63, R64: the checksum is the remainder of polynomial division over GF(2): with the 0xFF of the initial
accumulator added to the first byte, `(0xFF + d0) x^16 + d1 x^8 + crc8(d0, d1)` is a multiple of the generator
`x^8 + x^5 + x^4 + 1`. -/
def Obligations.ChecksumIsThePolynomialRemainder : Prop :=
  let poly : Byte → Polynomial (ZMod 2) := fun b =>
    ∑ i ∈ Finset.range 8, if b.getLsbD i then Polynomial.X ^ i else 0
  ∀ d0 d1 : Byte,
    (Polynomial.X ^ 8 + Polynomial.X ^ 5 + Polynomial.X ^ 4 + 1 : Polynomial (ZMod 2)) ∣
      (poly 0xFF#8 + poly d0) * Polynomial.X ^ 16 + poly d1 * Polynomial.X ^ 8 + poly (crc8 d0 d1)

/-- R63, its last sentence: XOR with 0x31 after the truncating shift gives the byte that XOR with 0x131 before the
truncation gives. -/
def Obligations.RoundIsXorWith131BeforeTruncation : Prop :=
  ∀ acc : Byte, crcRound acc =
    ((acc.setWidth 9 <<< 1) ^^^ (if acc.getLsbD 7 then 0x131#9 else 0x000#9)).setWidth 8

/-- R66: `CRC8` of two bytes answers their checksum; any other length answers `OPERAND_LENGTH`; every byte value is
some chunk's checksum; and the rule's own corner values and example. Its `CMD` byte is 0x01. -/
def Obligations.Crc8AnswersTheChecksum : Prop :=
  (∀ (d0 d1 : Byte) (s : State),
    exec (.crc8 [d0, d1]) s = .next { s with rx := [], tx := [0x00#8, 0x00#8, 0x01#8, crc8 d0 d1] }) ∧
  (∀ (ins : List Byte) (s : State), ins.length ≠ 2 →
    exec (.crc8 ins) s = .next { s with rx := [], tx := [0x04#8, 0x00#8, 0x00#8] }) ∧
  (∀ c : Byte, ∃ d0 d1 : Byte, crc8 d0 d1 = c) ∧
  crc8 0x00#8 0x00#8 = 0x81#8 ∧ crc8 0xFF#8 0xFF#8 = 0xAC#8 ∧ crc8 0xFF#8 0x00#8 = 0x00#8 ∧
  crc8 0x03#8 0x00#8 = 0xAC#8 ∧ crc8 0xBE#8 0xEF#8 = 0x92#8 ∧
  (∀ ins : List Byte, (encode (.crc8 ins)).head? = some 0x01#8)

/-- R67: `CRCCHK` answers 0x01 for a valid group and 0x00 for any other, both with status `OK`; any other length
answers `OPERAND_LENGTH`; for each chunk exactly one checksum byte gives 0x01. Its `CMD`
byte is 0x02. -/
def Obligations.CrcchkReportsGroupValidity : Prop :=
  (∀ (d0 d1 c : Byte) (s : State), crc8 d0 d1 = c →
    exec (.crcchk [d0, d1, c]) s = .next { s with rx := [], tx := [0x00#8, 0x00#8, 0x01#8, 0x01#8] }) ∧
  (∀ (d0 d1 c : Byte) (s : State), crc8 d0 d1 ≠ c →
    exec (.crcchk [d0, d1, c]) s = .next { s with rx := [], tx := [0x00#8, 0x00#8, 0x01#8, 0x00#8] }) ∧
  (∀ (ins : List Byte) (s : State), ins.length ≠ 3 →
    exec (.crcchk ins) s = .next { s with rx := [], tx := [0x04#8, 0x00#8, 0x00#8] }) ∧
  (∀ d0 d1 : Byte, ∃! c : Byte, ∀ s : State,
    exec (.crcchk [d0, d1, c]) s = .next { s with rx := [], tx := [0x00#8, 0x00#8, 0x01#8, 0x01#8] }) ∧
  (∀ s : State, exec (.crcchk [0xFF#8, 0xFF#8, 0xFF#8]) s = .next { s with rx := [], tx := [0x00#8, 0x00#8, 0x01#8, 0x00#8] }) ∧
  (∀ s : State, exec (.crcchk [0xFF#8, 0xFF#8, 0xAC#8]) s = .next { s with rx := [], tx := [0x00#8, 0x00#8, 0x01#8, 0x01#8] }) ∧
  (∀ s : State, exec (.crcchk [0x3F#8, 0x80#8, 0xD0#8]) s = .next { s with rx := [], tx := [0x00#8, 0x00#8, 0x01#8, 0x01#8] }) ∧
  (∀ ins : List Byte, (encode (.crcchk ins)).head? = some 0x02#8)

/-- R68: the group of a chunk and its checksum always checks, with the checksum taken from the response of `CRC8`. -/
def Obligations.CheckOfAComputedChecksumIsTrue : Prop :=
  ∀ (d0 d1 c : Byte) (s t : State), exec (.crc8 [d0, d1]) s = .next t → t.tx.getLast? = some c →
    ∀ u : State, exec (.crcchk [d0, d1, c]) u =
      .next { u with rx := [], tx := [0x00#8, 0x00#8, 0x01#8, 0x01#8] }

/-- R69: a valid group with one byte, data or checksum, replaced by any other value is not valid; a change of two
bytes can go unseen. -/
def Obligations.SingleByteCorruptionIsDetected : Prop :=
  (∀ d0 d1 c x : Byte, crc8 d0 d1 = c →
    (x ≠ d0 → crc8 x d1 ≠ c) ∧ (x ≠ d1 → crc8 d0 x ≠ c) ∧ (x ≠ c → crc8 d0 d1 ≠ x)) ∧
  crc8 0x03#8 0x00#8 = 0xAC#8 ∧ crc8 0xFF#8 0xFF#8 = 0xAC#8

/-- R70: folding the checksum byte in as a third step gives zero exactly for a valid group. -/
def Obligations.ResidueIsZeroExactlyForValidGroups : Prop :=
  ∀ d0 d1 c : Byte,
    crcStep (crcStep (crcStep 0xFF#8 d0) d1) c = 0x00#8 ↔ crc8 d0 d1 = c

/-! ### Framing -/

/-- R71, R74: `ENCODE` of an opcode and an even number `n` of argument bytes answers the opcode bytes and then, for
every pair `k`, the pair and its checksum, `2 + 3 * (n / 2)` bytes in all; an odd `n` answers
`INVALID_ARGUMENT_LENGTH` and fewer than two bytes `OPERAND_LENGTH`. Its `CMD` byte is 0x03. More bytes than `IN_CAP`
are the subject of `OverCapacityAnswersOperandLength`. -/
def Obligations.EncodeBuildsTheFrame : Prop :=
  (∀ (ins : List Byte) (s : State), 2 ≤ ins.length → (ins.length - 2) % 2 = 0 → ins.length ≤ Config.inCap →
    ∃ out : List Byte,
      exec (.encode ins) s = .next
        { s with rx := [], tx := [0x00#8, BitVec.ofNat 8 (out.length / 256), BitVec.ofNat 8 out.length] ++ out } ∧
      out.length = 2 + 3 * ((ins.length - 2) / 2) ∧
      out[0]? = ins[0]? ∧ out[1]? = ins[1]? ∧
      ∀ k, k < (ins.length - 2) / 2 → ∃ a0 a1 : Byte,
        ins[2 + 2 * k]? = some a0 ∧ ins[3 + 2 * k]? = some a1 ∧
        out[2 + 3 * k]? = some a0 ∧ out[3 + 3 * k]? = some a1 ∧ out[4 + 3 * k]? = some (crc8 a0 a1)) ∧
  (∀ (ins : List Byte) (s : State), 2 ≤ ins.length → (ins.length - 2) % 2 = 1 → ins.length ≤ Config.inCap →
    exec (.encode ins) s = .next { s with rx := [], tx := [0x02#8, 0x00#8, 0x00#8] }) ∧
  (∀ (ins : List Byte) (s : State), ins.length < 2 →
    exec (.encode ins) s = .next { s with rx := [], tx := [0x04#8, 0x00#8, 0x00#8] }) ∧
  (∀ ins : List Byte, (encode (.encode ins)).head? = some 0x03#8)

/-- R73: no arguments give just the two opcode bytes, whatever they are. -/
def Obligations.EncodeWithoutArgumentsIsTheOpcode : Prop :=
  ∀ (h l : Byte) (s : State),
    exec (.encode [h, l]) s = .next { s with rx := [], tx := [0x00#8, 0x00#8, 0x02#8, h, l] }

/-- R75, R76: `DECPAIRS` of whole groups answers the data bytes of every group when all are valid, and otherwise
`CHECKSUM_MISMATCH` with the offset `3g` of the lowest invalid group and no pair; a length that is no multiple of 3
answers `INVALID_BUFFER_LENGTH`. Its `CMD` byte is 0x04. More bytes than `IN_CAP` are the subject of
`OverCapacityAnswersOperandLength`. -/
def Obligations.DecpairsChecksAndExtracts : Prop :=
  (∀ (ins : List Byte) (s : State), ins.length % 3 = 0 → ins.length ≤ Config.inCap →
    (∀ g, g < ins.length / 3 → groupValidAt ins (3 * g) = true) →
    ∃ out : List Byte,
      exec (.decpairs ins) s = .next
        { s with rx := [], tx := [0x00#8, BitVec.ofNat 8 (out.length / 256), BitVec.ofNat 8 out.length] ++ out } ∧
      out.length = 2 * (ins.length / 3) ∧
      ∀ g, g < ins.length / 3 → out[2 * g]? = ins[3 * g]? ∧ out[2 * g + 1]? = ins[3 * g + 1]?) ∧
  (∀ (ins : List Byte) (s : State) (g : Nat), ins.length % 3 = 0 → ins.length ≤ Config.inCap →
    g < ins.length / 3 → groupValidAt ins (3 * g) = false →
    (∀ j, j < g → groupValidAt ins (3 * j) = true) →
    exec (.decpairs ins) s = .next
      { s with rx := [], tx := [0x01#8, 0x00#8, 0x02#8, BitVec.ofNat 8 (3 * g / 256), BitVec.ofNat 8 (3 * g)] }) ∧
  (∀ (ins : List Byte) (s : State), ins.length % 3 ≠ 0 → ins.length ≤ Config.inCap →
    exec (.decpairs ins) s = .next { s with rx := [], tx := [0x03#8, 0x00#8, 0x00#8] }) ∧
  (∀ ins : List Byte, (encode (.decpairs ins)).head? = some 0x04#8)

/-- R77: what `ENCODE` frames, `DECPAIRS` gives back once the opcode bytes are taken off. The first clause is about
the two operations as their rules give them; the second about the unit, where R55 lets `DECPAIRS` run only on a
frame that fits `IN_CAP` (log 15). -/
def Obligations.EncodeThenDecpairsRoundTrip : Prop :=
  (∀ (h l : Byte) (args : List Byte), args.length % 2 = 0 → ∃ frame : List Byte,
    opEncode (h :: l :: args) = okay frame ∧ opDecpairs (frame.drop 2) = okay args) ∧
  (∀ (h l : Byte) (args frame : List Byte) (s : State), args.length % 2 = 0 →
    exec (.encode (h :: l :: args)) s = .next { s with rx := [], tx := (okay frame).bytes } →
    frame.length - 2 ≤ Config.inCap → ∀ u : State,
    exec (.decpairs (frame.drop 2)) u = .next { u with rx := [], tx := (okay args).bytes })

/-- R78: if `DECPAIRS` answers `OK` and one byte of group `g` is changed to another value, it answers
`CHECKSUM_MISMATCH` at `3g`. -/
def Obligations.DecpairsPinpointsCorruption : Prop :=
  ∀ (ins out : List Byte) (s : State) (g j : Nat) (old x : Byte),
    exec (.decpairs ins) s = .next { s with rx := [], tx := (okay out).bytes } →
    g < ins.length / 3 → j < 3 → ins[3 * g + j]? = some old → x ≠ old → ∀ u : State,
    exec (.decpairs (ins.set (3 * g + j) x)) u = .next
      { u with rx := [], tx := [0x01#8, 0x00#8, 0x02#8, BitVec.ofNat 8 (3 * g / 256), BitVec.ofNat 8 (3 * g)] }

/-! ### Decoders -/

/-- R82: `F32REC` answers the data bytes of its two valid groups; the high group is checked first; any other length
answers `OPERAND_LENGTH`. Its `CMD` byte is 0x05. -/
def Obligations.F32recRebuildsTheChannel : Prop :=
  (∀ (h0 h1 hc l0 l1 lc : Byte) (s : State), crc8 h0 h1 = hc → crc8 l0 l1 = lc →
    exec (.f32rec [h0, h1, hc, l0, l1, lc]) s =
      .next { s with rx := [], tx := [0x00#8, 0x00#8, 0x04#8, h0, h1, l0, l1] }) ∧
  (∀ (h0 h1 hc l0 l1 lc : Byte) (s : State), crc8 h0 h1 ≠ hc →
    exec (.f32rec [h0, h1, hc, l0, l1, lc]) s =
      .next { s with rx := [], tx := [0x01#8, 0x00#8, 0x02#8, 0x00#8, 0x00#8] }) ∧
  (∀ (h0 h1 hc l0 l1 lc : Byte) (s : State), crc8 h0 h1 = hc → crc8 l0 l1 ≠ lc →
    exec (.f32rec [h0, h1, hc, l0, l1, lc]) s =
      .next { s with rx := [], tx := [0x01#8, 0x00#8, 0x02#8, 0x00#8, 0x03#8] }) ∧
  (∀ (ins : List Byte) (s : State), ins.length ≠ 6 →
    exec (.f32rec ins) s = .next { s with rx := [], tx := [0x04#8, 0x00#8, 0x00#8] }) ∧
  (∀ ins : List Byte, (encode (.f32rec ins)).head? = some 0x05#8)

/-- R80: every 32-bit pattern goes through unchanged: its channel, with the two checksums in place, answers the bytes
of the pattern, most significant first, and those bytes are the pattern. -/
def Obligations.EveryPatternPassesUnchanged : Prop :=
  ∀ (w : Pattern) (s : State),
    let b3 : Byte := w.extractLsb' 24 8
    let b2 : Byte := w.extractLsb' 16 8
    let b1 : Byte := w.extractLsb' 8 8
    let b0 : Byte := w.extractLsb' 0 8
    exec (.f32rec [b3, b2, crc8 b3 b2, b1, b0, crc8 b1 b0]) s =
        .next { s with rx := [], tx := [0x00#8, 0x00#8, 0x04#8, b3, b2, b1, b0] } ∧
      pattern b3 b2 b1 b0 = w

/-- R83, R85: `DECMEAS` of 60 bytes answers all ten patterns when all twenty half-word groups are valid, and otherwise
`CHECKSUM_MISMATCH` with the absolute offset of the lowest invalid one and no channel; any other length answers
`OPERAND_LENGTH`. Its `CMD` byte is 0x06. -/
def Obligations.DecmeasRebuildsAllOrNothing : Prop :=
  (∀ (ins : List Byte) (s : State), ins.length = 60 → (∀ g, g < 20 → groupValidAt ins (3 * g) = true) →
    ∃ out : List Byte,
      exec (.decmeas ins) s = .next { s with rx := [], tx := [0x00#8, 0x00#8, 0x28#8] ++ out } ∧
      out.length = 40 ∧
      ∀ i, i < 10 → out[4 * i]? = ins[6 * i]? ∧ out[4 * i + 1]? = ins[6 * i + 1]? ∧
        out[4 * i + 2]? = ins[6 * i + 3]? ∧ out[4 * i + 3]? = ins[6 * i + 4]?) ∧
  (∀ (ins : List Byte) (s : State) (i h : Nat), ins.length = 60 → i < 10 → h = 0 ∨ h = 3 →
    groupValidAt ins (6 * i + h) = false → (∀ g, 3 * g < 6 * i + h → groupValidAt ins (3 * g) = true) →
    exec (.decmeas ins) s = .next
      { s with rx := [], tx := [0x01#8, 0x00#8, 0x02#8, 0x00#8, BitVec.ofNat 8 (6 * i + h)] }) ∧
  (∀ (ins : List Byte) (s : State), ins.length ≠ 60 →
    exec (.decmeas ins) s = .next { s with rx := [], tx := [0x04#8, 0x00#8, 0x00#8] }) ∧
  (∀ ins : List Byte, (encode (.decmeas ins)).head? = some 0x06#8)

/-- R86, the lane law: ten channels that `F32REC` rebuilds one by one are what `DECMEAS` answers together; otherwise
the lowest failing channel `i`, with its offset 0 or 3, gives the offset `6i + o`. -/
def Obligations.DecmeasIsTenLanes : Prop :=
  ∀ (ins : List Byte) (s : State), ins.length = 60 →
    (∀ w : Nat → List Byte,
      (∀ i, i < 10 → exec (.f32rec (lane ins i)) s = .next { s with rx := [], tx := (okay (w i)).bytes }) →
      exec (.decmeas ins) s = .next { s with rx := [], tx := (okay ((List.range 10).flatMap w)).bytes }) ∧
    (∀ i o : Nat, i < 10 → o = 0 ∨ o = 3 →
      (∀ j, j < i → ∃ w, exec (.f32rec (lane ins j)) s = .next { s with rx := [], tx := (okay w).bytes }) →
      exec (.f32rec (lane ins i)) s = .next { s with rx := [], tx := (raiseMismatch o).bytes } →
      exec (.decmeas ins) s = .next { s with rx := [], tx := (raiseMismatch (6 * i + o)).bytes }) ∧
    ((∃ w : Nat → List Byte, ∀ i, i < 10 →
        exec (.f32rec (lane ins i)) s = .next { s with rx := [], tx := (okay (w i)).bytes }) ∨
      ∃ i o : Nat, i < 10 ∧ (o = 0 ∨ o = 3) ∧
        (∀ j, j < i → ∃ w, exec (.f32rec (lane ins j)) s = .next { s with rx := [], tx := (okay w).bytes }) ∧
        exec (.f32rec (lane ins i)) s = .next { s with rx := [], tx := (raiseMismatch o).bytes })

/-- R87: on 60 bytes `DECMEAS` and `DECPAIRS` answer the same, status and payload, in every state. -/
def Obligations.DecmeasAgreesWithDecpairs : Prop :=
  ∀ (ins : List Byte) (s : State), ins.length = 60 → exec (.decmeas ins) s = exec (.decpairs ins) s

/-- R84, the channel map: the ten channels with their numbers, names and units, in the order of the rule's table; and
after a successful `DECMEAS` the observer's channel `c`, number `i`, is the pattern of input bytes `6i`, `6i + 1`,
`6i + 3`, `6i + 4`, read from payload bytes `4i` to `4i + 3`. -/
def Obligations.ChannelMapFollowsTheInput : Prop :=
  [Channel.pm1Mass, .pm2_5Mass, .pm4Mass, .pm10Mass, .pm0_5Count, .pm1Count, .pm2_5Count, .pm4Count, .pm10Count,
      .typicalSize].map (fun c => (channelIndex c, channelName c, channelUnit c)) =
    [(0, "pm1_mass", "µg/m³"), (1, "pm2_5_mass", "µg/m³"), (2, "pm4_mass", "µg/m³"), (3, "pm10_mass", "µg/m³"),
      (4, "pm0_5_count", "particles/cm³"), (5, "pm1_count", "particles/cm³"), (6, "pm2_5_count", "particles/cm³"),
      (7, "pm4_count", "particles/cm³"), (8, "pm10_count", "particles/cm³"), (9, "typical_size", "µm")] ∧
  ∀ (ins out : List Byte) (s : State) (c : Channel), ins.length = 60 →
    exec (.decmeas ins) s = .next { s with rx := [], tx := (okay out).bytes } →
    ∃ h0 h1 l0 l1 : Byte,
      ins[6 * channelIndex c]? = some h0 ∧ ins[6 * channelIndex c + 1]? = some h1 ∧
      ins[6 * channelIndex c + 3]? = some l0 ∧ ins[6 * channelIndex c + 4]? = some l1 ∧
      (out.drop (4 * channelIndex c)).take 4 = [h0, h1, l0, l1] ∧
      channelPattern out c = some (pattern h0 h1 l0 l1)

/-- R88 and R89, the document's two measurement examples, in every state. -/
def Obligations.MeasurementExamples : Prop :=
  ∀ s : State,
    exec (.decmeas ([0x3F#8, 0x80#8, 0xD0#8, 0x00#8, 0x00#8, 0x81#8] ++
        (List.replicate 9 [0x00#8, 0x00#8, 0x81#8, 0x00#8, 0x00#8, 0x81#8]).flatten)) s =
      .next
        { s with rx := [], tx := [0x00#8, 0x00#8, 0x28#8, 0x3F#8, 0x80#8, 0x00#8, 0x00#8] ++ List.replicate 36 0x00#8 } ∧
    exec (.decmeas (List.replicate 60 0xFF#8)) s =
      .next { s with rx := [], tx := [0x01#8, 0x00#8, 0x02#8, 0x00#8, 0x00#8] }

/-- R90, R91: `DECSTAT` answers 0x01 for the valid status word 0x0001 alone, 0x00 with status `OK` for every other
valid word, `CHECKSUM_MISMATCH` at 0 for an invalid group and `OPERAND_LENGTH` for any other length. Its `CMD` byte is 0x07. -/
def Obligations.DecstatAnswersTrueOnlyForOne : Prop :=
  (∀ s : State, exec (.decstat [0x00#8, 0x01#8, crc8 0x00#8 0x01#8]) s =
    .next { s with rx := [], tx := [0x00#8, 0x00#8, 0x01#8, 0x01#8] }) ∧
  (∀ (v1 v0 c : Byte) (s : State), crc8 v1 v0 = c → ¬ (v1 = 0x00#8 ∧ v0 = 0x01#8) →
    exec (.decstat [v1, v0, c]) s = .next { s with rx := [], tx := [0x00#8, 0x00#8, 0x01#8, 0x00#8] }) ∧
  (∀ (v1 v0 c : Byte) (s : State), crc8 v1 v0 ≠ c →
    exec (.decstat [v1, v0, c]) s = .next { s with rx := [], tx := [0x01#8, 0x00#8, 0x02#8, 0x00#8, 0x00#8] }) ∧
  (∀ (ins : List Byte) (s : State), ins.length ≠ 3 →
    exec (.decstat ins) s = .next { s with rx := [], tx := [0x04#8, 0x00#8, 0x00#8] }) ∧
  (∀ ins : List Byte, (encode (.decstat ins)).head? = some 0x07#8)

/-- R81 (general knowledge, log 12), on the value examples of spec/95_test_vectors.md 2.6 and 2.7. -/
def Obligations.FloatReadingsOfTheSpec : Prop :=
  floatReading 0x3F800000#32 = .finite false 1 ∧ floatReading 0x00000000#32 = .finite false 0 ∧
  floatReading 0x80000000#32 = .finite true 0 ∧ floatReading 0xBF800000#32 = .finite true 1 ∧
  floatReading 0x41480000#32 = .finite false (25 / 2) ∧ floatReading 0x42BE8000#32 = .finite false (381 / 4) ∧
  floatReading 0x3F000000#32 = .finite false (1 / 2) ∧
  floatReading 0x00000001#32 = .finite false (1 / 2 ^ 149) ∧
  floatReading 0x00800000#32 = .finite false (1 / 2 ^ 126) ∧
  floatReading 0x7F7FFFFF#32 = .finite false ((2 ^ 24 - 1) * 2 ^ 104) ∧
  floatReading 0x7F800000#32 = .infinity false ∧ floatReading 0xFF800000#32 = .infinity true ∧
  floatReading 0x7FC00000#32 = .nan true 0x400000#23 ∧ floatReading 0x7F800001#32 = .nan false 0x000001#23

/-! ### All operations -/

/-- R55: more operand bytes than `IN_CAP` answer `OPERAND_LENGTH`, whatever they are, and they are consumed. -/
def Obligations.OverCapacityAnswersOperandLength : Prop :=
  ∀ (i : Instr) (s : State), Config.inCap < i.operands.length →
    exec i s = .next { s with rx := [], tx := [0x04#8, 0x00#8, 0x00#8] }

/-- R97, R93: a legal request answers the first error that applies in the order of R97, and `OK` when none does. (Line
1 of R97, an illegal `CMD` before everything, is `IllegalCommandsAnswerIllegalOperation`.) -/
def Obligations.FirstErrorInOrderIsReported : Prop :=
  ∀ (i : Instr) (s : State),
    (∀ r : Response, expectedError Config.inCap i = some r →
      exec i s = .next { s with rx := [], tx := r.bytes }) ∧
    (expectedError Config.inCap i = none →
      ∃ out : List Byte, exec i s = .next { s with rx := [], tx := (okay out).bytes })

/-- R57: a request that answers `OK` had a length its operation takes, and its payload has the table's length. -/
def Obligations.SuccessHasTheTablesLengths : Prop :=
  ∀ (i : Instr) (out : List Byte) (s : State),
    exec i s = .next { s with rx := [], tx := (okay out).bytes } →
    i.LengthFits = true ∧ out.length = okLength i

/-- R51, R52, R53, R56: whatever the unit answers, to any operation and to any whole request, one with an illegal
`CMD` byte too, is one of the six statuses (so `STS` is at most 0x05), carries what its status carries, and fits
`RLEN`: at most 65534 payload bytes, and the two `RLEN` bytes read back as their number. -/
def Obligations.EveryResponseIsLegal : Prop :=
  (∀ i : Instr, ∃ r : Response,
    (∀ s : State, exec i s = .next { s with rx := [], tx := r.bytes }) ∧
    r.Legal ∧ r.payload.length ≤ 65534 ∧ (∃ sts : Byte, r.bytes.head? = some sts ∧ sts ≤ 0x05#8) ∧
    lenField r.bytes = some r.payload.length ∧ r.bytes.length = 3 + r.payload.length) ∧
  (∀ request : List Byte, WholeRequest request → ∃ r : Response,
    (∀ s : State, serveRequest request s = .next { s with rx := [], tx := r.bytes }) ∧
    r.Legal ∧ r.payload.length ≤ 65534 ∧ (∃ sts : Byte, r.bytes.head? = some sts ∧ sts ≤ 0x05#8) ∧
    lenField r.bytes = some r.payload.length ∧ r.bytes.length = 3 + r.payload.length)

/-- R92, R99: the frame of every operation, errors included: the request is gone from `rx`, a response of at least
three bytes stands in `tx`, and nothing else changes: the host's side, which is the model's (log 1), stays. -/
def Obligations.OperationsChangeOnlyThePort : Prop :=
  ∀ (i : Instr) (s : State), ∃ t : State, exec i s = .next t ∧
    t.rx = [] ∧ 3 ≤ t.tx.length ∧ t.pending = s.pending ∧ t.received = s.received

/-- R39: two requests with the same bytes get the same response, whatever the two states are otherwise. The events
are the model's (log 1). -/
def Obligations.SameRequestSameResponse : Prop :=
  ∀ (request : List Byte) (s u : State) (b c : Byte) (evs evs' : List PortEvent),
    WholeRequest request → s.pending = .write b :: evs → u.pending = .write c :: evs' →
    s.tx = [] → u.tx = [] → s.rx ++ [b] = request → u.rx ++ [c] = request →
    ∃ tx : List Byte, tx ≠ [] ∧ step s = .next { s with rx := [], tx := tx, pending := evs } ∧
      step u = .next { u with rx := [], tx := tx, pending := evs' }

/-! ### Encoding -/

/-- Decoding an encoded request gives the instruction back with every operand byte, and leaves what follows alone
(R47, R57, R60). -/
def Obligations.DecodeOfEncodeIsTheInstruction : Prop :=
  ∀ (i : Instr) (rest : List Byte), i.WellFormed → decode (encode i ++ rest) = .ok i rest

/-- Every request has one spelling: what decodes to `i` is the encoding of `i` and what follows (R47, R60). -/
def Obligations.EncodeOfDecodeIsTheRequest : Prop :=
  ∀ (bytes rest : List Byte) (i : Instr), decode bytes = .ok i rest →
    i.WellFormed ∧ bytes = encode i ++ rest

/-- The decoder asks for more bytes (by the model's own name `truncated`) exactly while there are fewer than three or
fewer than `3 + LEN` (R28, R60). -/
def Obligations.DecoderWaitsExactlyWhileOpen : Prop :=
  ∀ bytes : List Byte, decode bytes = .rejected .truncated ↔ RequestOpen bytes

/-- Five requests written out in spec/95_test_vectors.md section 3 decode to the operations they stand for. The last two
clauses are about `18 00 00` (section 3) and `08 00 00` (section 2.9), which R58 makes illegal: that the decoder has a
rejection of its own for each field, `reservedRsv` and `reservedOp`, is the model's choice (log 16). -/
def Obligations.WordsOfTheSpecDecode : Prop :=
  decode [0x01#8, 0x00#8, 0x02#8, 0xBE#8, 0xEF#8] = .ok (.crc8 [0xBE#8, 0xEF#8]) [] ∧
  decode [0x02#8, 0x00#8, 0x03#8, 0xBE#8, 0xEF#8, 0x92#8] = .ok (.crcchk [0xBE#8, 0xEF#8, 0x92#8]) [] ∧
  decode [0x03#8, 0x00#8, 0x04#8, 0x12#8, 0x34#8, 0x03#8, 0x00#8] = .ok (.encode [0x12#8, 0x34#8, 0x03#8, 0x00#8]) [] ∧
  decode [0x04#8, 0x00#8, 0x03#8, 0x03#8, 0x00#8, 0xAC#8] = .ok (.decpairs [0x03#8, 0x00#8, 0xAC#8]) [] ∧
  decode [0x07#8, 0x00#8, 0x03#8, 0x00#8, 0x01#8, 0xB0#8] = .ok (.decstat [0x00#8, 0x01#8, 0xB0#8]) [] ∧
  decode [0x18#8, 0x00#8, 0x00#8] = .rejected (.reservedRsv 0x1#4) ∧
  decode [0x08#8, 0x00#8, 0x00#8] = .rejected (.reservedOp 0x8#4)

/-! ### The machine as a whole -/

/-- The port's invariant holds right after reset. -/
def Obligations.PortInvHoldsAfterReset : Prop := PortInv State.reset

/-- Every step that answers a next state keeps the port's invariant: an open request in `rx`, one exchange in flight,
and in `tx` the unread rest of the legal response to a whole request, whose read part stands at the end of the received
bytes (R18, R19, R28, R29, R38, R52, R53; the received bytes are the model's, log 1). -/
def Obligations.EveryStepKeepsPortInv : Prop :=
  ∀ s t : State, PortInv s → step s = .next t → PortInv t

/-- R62, the worked example, from any idle state: the written bytes `01 00 02 BE EF` are answered `00 00 01 92`.
The events and the received bytes are the model's (log 1). -/
def Obligations.WorkedExampleOfTheEncoding : Prop :=
  ∀ (s : State) (evs : List PortEvent), s.Idle →
    s.pending = transaction [0x01#8, 0x00#8, 0x02#8, 0xBE#8, 0xEF#8] ++ evs →
    Host.Core.run Sys2Proof.core 9 s =
      .next { s with pending := evs, received := s.received ++ [0x00#8, 0x00#8, 0x01#8, 0x92#8] }

/-- R42, R111: from any idle state, a host that keeps its duties gets response `k` to request `k`, in order and whole,
whatever the requests are; no step stops, and the unit ends idle. The events and the received bytes are the model's
(log 1). -/
def Obligations.SessionsAreAnsweredInOrder : Prop :=
  ∀ (requests : List (List Byte)) (s : State) (evs : List PortEvent), s.Idle →
    (∀ request ∈ requests, WholeRequest request) → s.pending = session requests ++ evs →
    Host.Core.run Sys2Proof.core (session requests).length s =
      .next { s with pending := evs, received := s.received ++ requests.flatMap responseTo }

/-- R109, R113: whatever the unit was doing, after a reset the next request is taken from its `CMD` byte and gets the
response it gets at any other time. That the events behind the reset still come and that the received bytes stay is the
model's choice (logs 1 and 17). -/
def Obligations.ResetResynchronises : Prop :=
  ∀ (request : List Byte) (s : State) (evs : List PortEvent), WholeRequest request →
    s.pending = .reset :: (transaction request ++ evs) →
    Host.Core.run Sys2Proof.core (1 + (transaction request).length) s =
      .next { s with rx := [], tx := [], pending := evs, received := s.received ++ responseTo request }

/-- R112: with fewer bytes than a whole request there is no response, however the bytes go: every one of them is taken
in, `tx` stays empty, and the host's next read has no move (the model's fault for that, log 4, and its events, log 1). -/
def Obligations.PartialRequestGetsNoResponse : Prop :=
  ∀ (request : List Byte) (k : Nat) (s : State) (evs : List PortEvent), s.Idle → WholeRequest request →
    k < request.length → s.pending = (request.take k).map .write ++ .read :: evs →
    Host.Core.run Sys2Proof.core k s = .next { s with rx := request.take k, pending := .read :: evs } ∧
    Host.Core.run Sys2Proof.core (k + 1) s = .fault .readWithNoResponse
end

