-- ==== Sys2Proof/Laws/Checksum.lean ====
section
/-! SUPPORT. A step of the checksum loses nothing: it is injective in the accumulator and in the byte. -/

namespace Sys2Proof.Machine

/-- The round undone: the generator's constant term leaves its mark in bit 0, where the shift put a zero. -/
def crcUnround (r : Byte) : Byte := if r.getLsbD 0 then ((r ^^^ crcPoly) >>> 1) ||| 0x80#8 else r >>> 1

theorem crcUnround_crcRound : ∀ acc : Byte, crcUnround (crcRound acc) = acc := by decide +kernel

theorem crcRound_injective (a b : Byte) (h : crcRound a = crcRound b) : a = b := by
  rw [← crcUnround_crcRound a, h, crcUnround_crcRound]

theorem crcRounds_injective (n : Nat) {a b : Byte} (h : crcRounds n a = crcRounds n b) : a = b := by
  induction n generalizing a b with
  | zero => exact h
  | succ n ih => exact crcRound_injective _ _ (ih h)

theorem crcStep_injective_acc {a a' b : Byte} (h : crcStep a b = crcStep a' b) : a = a' := by
  simpa [BitVec.xor_left_inj] using crcRounds_injective 8 h

theorem crcStep_injective_byte {a b b' : Byte} (h : crcStep a b = crcStep a b') : b = b' := by
  simpa [BitVec.xor_right_inj] using crcRounds_injective 8 h

end Sys2Proof.Machine
end

