-- ==== Sys2Proof/Laws/State.lean ====
section
/-! SUPPORT. Each field after each update of State, and what a loaded request holds. -/

namespace Sys2Proof.Machine

section
variable (s : State) (evs : List PortEvent) (b : Byte) (bs : List Byte) (r : Response)

@[simp] theorem afterEvent_rx : (s.afterEvent evs).rx = s.rx := rfl
@[simp] theorem afterEvent_tx : (s.afterEvent evs).tx = s.tx := rfl
@[simp] theorem afterEvent_pending : (s.afterEvent evs).pending = evs := rfl
@[simp] theorem afterEvent_received : (s.afterEvent evs).received = s.received := rfl

@[simp] theorem pushRx_rx : (s.pushRx b).rx = s.rx ++ [b] := rfl
@[simp] theorem pushRx_tx : (s.pushRx b).tx = s.tx := rfl
@[simp] theorem pushRx_pending : (s.pushRx b).pending = s.pending := rfl
@[simp] theorem pushRx_received : (s.pushRx b).received = s.received := rfl

@[simp] theorem putResponse_rx : (s.putResponse r).rx = [] := rfl
@[simp] theorem putResponse_tx : (s.putResponse r).tx = r.bytes := rfl
@[simp] theorem putResponse_pending : (s.putResponse r).pending = s.pending := rfl
@[simp] theorem putResponse_received : (s.putResponse r).received = s.received := rfl

@[simp] theorem popTx_rx : (s.popTx b bs).rx = s.rx := rfl
@[simp] theorem popTx_tx : (s.popTx b bs).tx = bs := rfl
@[simp] theorem popTx_pending : (s.popTx b bs).pending = s.pending := rfl
@[simp] theorem popTx_received : (s.popTx b bs).received = s.received ++ [b] := rfl

@[simp] theorem clearPort_rx : s.clearPort.rx = [] := rfl
@[simp] theorem clearPort_tx : s.clearPort.tx = [] := rfl
@[simp] theorem clearPort_pending : s.clearPort.pending = s.pending := rfl
@[simp] theorem clearPort_received : s.clearPort.received = s.received := rfl

@[simp] theorem reset_rx : State.reset.rx = [] := rfl
@[simp] theorem reset_tx : State.reset.tx = [] := rfl
@[simp] theorem reset_pending : State.reset.pending = [] := rfl
@[simp] theorem reset_received : State.reset.received = [] := rfl

end

end Sys2Proof.Machine
end

