-- ==== Sys2Proof/Laws/Ops.lean ====
section
/-! SUPPORT. What each shared operation does, said once. -/

namespace Sys2Proof.Machine

/-- The capacity lies in the range R9 gives. -/
theorem inCap_range : 60 ≤ Config.inCap ∧ Config.inCap ≤ 43690 := by
  have h : Config.inCapFree % 43631 < 43631 := Nat.mod_lt _ (by decide)
  unfold Config.inCap
  omega

theorem respond_eq (r : Response) (s : State) : respond r s = .next (s.putResponse r) := rfl

theorem serve_eq (op : List Byte → Response) (ins : List Byte) (s : State) :
    serve op ins s = .next (s.putResponse (withinCap Config.inCap op ins)) := rfl

theorem illegalRequest_eq (s : State) :
    illegalRequest s = .next (s.putResponse (raise .illegalOperation)) := rfl

theorem withinCap_of_le {cap : Nat} {op : List Byte → Response} {ins : List Byte} (h : ins.length ≤ cap) :
    withinCap cap op ins = op ins := by
  simp [withinCap, Nat.not_lt.mpr h]

theorem withinCap_of_gt {cap : Nat} {op : List Byte → Response} {ins : List Byte} (h : cap < ins.length) :
    withinCap cap op ins = raise .operandLength := by
  simp [withinCap, h]

/-- A request of at most 60 operand bytes is never over capacity. -/
theorem withinCap_of_le_sixty {op : List Byte → Response} {ins : List Byte} (h : ins.length ≤ 60) :
    withinCap Config.inCap op ins = op ins :=
  withinCap_of_le (h.trans inCap_range.1)

@[simp] theorem half_toNat_lt (hi lo : Byte) : (half hi lo).toNat < 65536 := (half hi lo).isLt

theorem half_toNat (hi lo : Byte) : (half hi lo).toNat = 256 * hi.toNat + lo.toNat := by
  have h : lo.toNat < 2 ^ 8 := lo.isLt
  simp only [half, BitVec.toNat_append, Nat.shiftLeft_eq]
  rw [Nat.mul_comm, ← Nat.two_pow_add_eq_or_of_lt h]

@[simp] theorem length_halfBytes (h : Half) : (halfBytes h).length = 2 := rfl

@[simp] theorem length_patternBytes (w : Pattern) : (patternBytes w).length = 4 := rfl

/-- The bytes of a pattern built from four bytes are those four bytes (R35, R80). -/
@[simp] theorem patternBytes_pattern (a b c d : Byte) : patternBytes (pattern a b c d) = [a, b, c, d] := by
  simp only [patternBytes, pattern, List.cons.injEq, and_true]
  refine ⟨?_, ?_, ?_, ?_⟩ <;> ext i hi <;>
    simp [BitVec.getElem_extractLsb'] <;> grind

/-- The two bytes of a half-word read back as that half-word (R34). -/
theorem half_halfBytes (h : Half) : half (h.extractLsb' 8 8) (h.extractLsb' 0 8) = h := by
  ext i hi
  simp [half]
  grind

/-- The two big-endian bytes of a number's low 16 bits (R34). -/
theorem halfBytes_ofNat (n : Nat) :
    halfBytes (BitVec.ofNat 16 n) = [BitVec.ofNat 8 (n / 256), BitVec.ofNat 8 n] := by
  simp only [halfBytes, List.cons.injEq, and_true]
  constructor <;> apply BitVec.eq_of_toNat_eq
  · simp [BitVec.extractLsb'_toNat, Nat.shiftRight_eq_div_pow]; omega
  · simp [BitVec.extractLsb'_toNat]

/-- Header and payload of any response (R51). -/
theorem response_bytes (r : Response) :
    r.bytes = [stsByte r.sts, BitVec.ofNat 8 (r.payload.length / 256), BitVec.ofNat 8 r.payload.length] ++ r.payload := by
  simp [Response.bytes, halfBytes_ofNat]

theorem okay_bytes (out : List Byte) :
    (okay out).bytes = [0x00#8, BitVec.ofNat 8 (out.length / 256), BitVec.ofNat 8 out.length] ++ out :=
  response_bytes _

theorem raise_bytes (e : Status) : (raise e).bytes = [stsByte e, 0x00#8, 0x00#8] := by
  simp [response_bytes, raise]

theorem raiseMismatch_bytes (off : Nat) :
    (raiseMismatch off).bytes = [0x01#8, 0x00#8, 0x02#8, BitVec.ofNat 8 (off / 256), BitVec.ofNat 8 off] := by
  simp [response_bytes, raiseMismatch, halfBytes_ofNat, stsByte]

/-- Two successes with the same bytes have the same payload. -/
theorem okay_bytes_injective {a b : List Byte} (h : (okay a).bytes = (okay b).bytes) : a = b := by
  simpa [okay_bytes] using congrArg (List.drop 3) h

@[simp] theorem length_responseBytes (r : Response) : r.bytes.length = 3 + r.payload.length := by
  simp [Response.bytes]; omega

end Sys2Proof.Machine
end

