-- ==== Sys2Proof/Laws/Exec.lean ====
section
/-! SUPPORT. Each operation's step as one equation, and what any operation can do. -/

namespace Sys2Proof.Machine

section
variable (ins : List Byte) (s : State)

theorem exec_crc8 : exec (.crc8 ins) s = .next (s.putResponse (withinCap Config.inCap opCrc8 ins)) := rfl
theorem exec_crcchk : exec (.crcchk ins) s = .next (s.putResponse (withinCap Config.inCap opCrcchk ins)) := rfl
theorem exec_encode : exec (.encode ins) s = .next (s.putResponse (withinCap Config.inCap opEncode ins)) := rfl
theorem exec_decpairs : exec (.decpairs ins) s = .next (s.putResponse (withinCap Config.inCap opDecpairs ins)) := rfl
theorem exec_f32rec : exec (.f32rec ins) s = .next (s.putResponse (withinCap Config.inCap opF32rec ins)) := rfl
theorem exec_decmeas : exec (.decmeas ins) s = .next (s.putResponse (withinCap Config.inCap opDecmeas ins)) := rfl
theorem exec_decstat : exec (.decstat ins) s = .next (s.putResponse (withinCap Config.inCap opDecstat ins)) := rfl

end

/-- Every operation answers, whatever the state, and its answer is one response that does not depend on the state. -/
theorem exec_answers (i : Instr) : ∃ r : Response, ∀ s : State, exec i s = .next (s.putResponse r) := by
  cases i with
  | crc8 ins => exact ⟨_, exec_crc8 ins⟩
  | crcchk ins => exact ⟨_, exec_crcchk ins⟩
  | encode ins => exact ⟨_, exec_encode ins⟩
  | decpairs ins => exact ⟨_, exec_decpairs ins⟩
  | f32rec ins => exact ⟨_, exec_f32rec ins⟩
  | decmeas ins => exact ⟨_, exec_decmeas ins⟩
  | decstat ins => exact ⟨_, exec_decstat ins⟩

end Sys2Proof.Machine
end

