-- ==== Sys2Proof/Laws/Step.lean ====
section
/-! SUPPORT. Everything one step can do, said once. -/

namespace Sys2Proof.Machine

/-- A served request answers with one response, or (a list that is no whole request) leaves the state alone. -/
theorem serveRequest_answers (request : List Byte) :
    (decode request = .rejected .truncated ∧ ∀ s : State, serveRequest request s = .next s) ∨
      ∃ r : Response, ∀ s : State, serveRequest request s = .next (s.putResponse r) := by
  unfold serveRequest
  rcases h : decode request with ⟨i, rest⟩ | ⟨_ | _ | _⟩
  · exact .inr (exec_answers i)
  · exact .inl ⟨rfl, fun _ => rfl⟩
  · exact .inr ⟨_, fun _ => rfl⟩
  · exact .inr ⟨_, fun _ => rfl⟩

theorem step_of_pending_nil {s : State} (h : s.pending = []) : step s = .next s := by
  simp [step, h]

theorem step_of_pending_cons {s : State} {e : PortEvent} {evs : List PortEvent} (h : s.pending = e :: evs) :
    step s = portEvent e (s.afterEvent evs) := by
  simp [step, h]

/-- The inversion of a step that answers a next state: the unit waited; or a byte came and left the request open; or
a byte completed the request, which was served; or the host read a byte; or the unit was reset. -/
theorem step_cases {s t : State} (h : step s = .next t) :
    (s.pending = [] ∧ t = s) ∨
    (∃ b evs, s.pending = .write b :: evs ∧ s.tx = [] ∧ requestComplete (s.rx ++ [b]) = false ∧
      t = (s.afterEvent evs).pushRx b) ∨
    (∃ b evs, s.pending = .write b :: evs ∧ s.tx = [] ∧ requestComplete (s.rx ++ [b]) = true ∧
      serveRequest (s.rx ++ [b]) ((s.afterEvent evs).pushRx b) = .next t) ∨
    (∃ b bs evs, s.pending = .read :: evs ∧ s.tx = b :: bs ∧ t = (s.afterEvent evs).popTx b bs) ∨
    (∃ evs, s.pending = .reset :: evs ∧ t = (s.afterEvent evs).clearPort) := by
  rcases hp : s.pending with _ | ⟨e, evs⟩
  · rw [step_of_pending_nil hp] at h
    injection h with h
    exact .inl ⟨rfl, h.symm⟩
  · rw [step_of_pending_cons hp] at h
    cases e with
    | write b =>
      rcases ht : s.tx with _ | ⟨c, cs⟩
      · by_cases hc : requestComplete (s.rx ++ [b]) = true
        · simp [portEvent, hostWrite, ht, hc] at h
          exact .inr (.inr (.inl ⟨b, evs, rfl, rfl, hc, h⟩))
        · simp [portEvent, hostWrite, ht, hc] at h
          exact .inr (.inl ⟨b, evs, rfl, rfl, by simpa using hc, h.symm⟩)
      · simp [portEvent, hostWrite, ht] at h
    | read =>
      rcases ht : s.tx with _ | ⟨c, cs⟩
      · simp [portEvent, hostRead, ht] at h
      · simp [portEvent, hostRead, ht] at h
        exact .inr (.inr (.inr (.inl ⟨c, cs, evs, rfl, rfl, h.symm⟩)))
    | reset =>
      simp [portEvent, portReset] at h
      exact .inr (.inr (.inr (.inr ⟨evs, rfl, h.symm⟩)))

end Sys2Proof.Machine
end

