-- ==== Sys2Proof/Laws/Decode.lean ====
section
/-! SUPPORT. When a request is complete, and what the decoder answers then. -/

namespace Sys2Proof.Machine

theorem requestComplete_cons {cmd hi lo : Byte} {ins : List Byte} :
    requestComplete (cmd :: hi :: lo :: ins) = true ↔ ins.length = (half hi lo).toNat := by
  simp [requestComplete, lenField]
  omega

/-- A complete request has its three header bytes. -/
theorem exists_of_requestComplete {request : List Byte} (h : requestComplete request = true) :
    ∃ cmd hi lo ins, request = cmd :: hi :: lo :: ins ∧ ins.length = (half hi lo).toNat := by
  match request, h with
  | [], h | [_], h | [_, _], h => simp [requestComplete, lenField] at h
  | cmd :: hi :: lo :: ins, h => exact ⟨cmd, hi, lo, ins, rfl, requestComplete_cons.mp h⟩

/-- A complete request decodes by its `CMD` byte, its operands whole and nothing left over. -/
theorem decode_of_complete {cmd hi lo : Byte} {ins : List Byte} (h : ins.length = (half hi lo).toNat) :
    decode (cmd :: hi :: lo :: ins) = decodeCmd cmd ins [] := by
  simp [decode, ← h]

/-- A `CMD` byte gives an instruction or one of the two named rejections of R58. -/
theorem decodeCmd_cases (cmd : Byte) (ins rest : List Byte) :
    (∃ i, decodeCmd cmd ins rest = .ok i rest) ∨ (∃ v, decodeCmd cmd ins rest = .rejected (.reservedRsv v)) ∨
      ∃ v, decodeCmd cmd ins rest = .rejected (.reservedOp v) := by
  unfold decodeCmd
  split
  · exact .inr (.inl ⟨_, rfl⟩)
  · split
    · exact .inl ⟨_, rfl⟩
    · exact .inr (.inr ⟨_, rfl⟩)

/-- A complete request is always answered, with one response that does not depend on the state. -/
theorem serveRequest_of_complete {request : List Byte} (h : requestComplete request = true) :
    ∃ r : Response, ∀ s : State, serveRequest request s = .next (s.putResponse r) := by
  obtain ⟨cmd, hi, lo, ins, rfl, hl⟩ := exists_of_requestComplete h
  rcases serveRequest_answers (cmd :: hi :: lo :: ins) with ⟨hd, _⟩ | hr
  · rw [decode_of_complete hl] at hd
    rcases decodeCmd_cases cmd ins [] with ⟨i, hi⟩ | ⟨v, hv⟩ | ⟨v, hv⟩ <;> simp_all
  · exact hr

end Sys2Proof.Machine
end

