-- ==== Sys2Proof/Laws/Framing.lean ====
section
/-! SUPPORT. Lengths of what `ENCODE` and `DECPAIRS` emit, and groups by their offsets. -/

namespace Sys2Proof.Machine

theorem length_encodePairs : ∀ args : List Byte, (encodePairs args).length = 3 * (args.length / 2)
  | [] => by simp [encodePairs]
  | [_] => by simp [encodePairs]
  | _ :: _ :: args => by
    have := length_encodePairs args
    simp [encodePairs, this]
    omega

theorem length_groupData : ∀ ins : List Byte, (groupData ins).length = 2 * (ins.length / 3)
  | [] => by simp [groupData]
  | [_] => by simp [groupData]
  | [_, _] => by simp [groupData]
  | _ :: _ :: _ :: rest => by
    have := length_groupData rest
    simp [groupData, this]
    omega

@[simp] theorem groupValidAt_cons_zero (d0 d1 c : Byte) (rest : List Byte) :
    groupValidAt (d0 :: d1 :: c :: rest) 0 = groupValid d0 d1 c := rfl

@[simp] theorem groupValidAt_cons_add (d0 d1 c : Byte) (rest : List Byte) (off : Nat) :
    groupValidAt (d0 :: d1 :: c :: rest) (off + 3) = groupValidAt rest off := by
  simp [groupValidAt]

end Sys2Proof.Machine
end

