-- ==== Sys2Proof/Laws/PerInstr.lean ====
section
/-! SUPPORT. The shape of a request's bytes, one lemma per operation. -/

namespace Sys2Proof.Laws.RequestShape

/-- A request is three header bytes and its operands (R47), its `RSV` field is 0000 and its `OP` field is the
operation's code, one of 0x1 to 0x7 (R48). -/
def Statement (i : Instr) : Prop :=
  (encode i).length = 3 + i.operands.length ∧ Machine.rsvField i.cmdByte = 0#4 ∧
    Machine.opField i.cmdByte = i.opCode ∧ 1 ≤ i.opCode.toNat ∧ i.opCode.toNat ≤ 7

theorem length_encode (i : Instr) : (encode i).length = 3 + i.operands.length := by
  simp [encode, Machine.halfBytes]; omega

/-- The two fields of a command byte whose reserved field is 0000. -/
theorem fields_cmdByte (op : BitVec 4) (h : 1 ≤ op.toNat ∧ op.toNat ≤ 7) :
    Machine.rsvField (0x0#4 ++ op) = 0#4 ∧ Machine.opField (0x0#4 ++ op) = op ∧ 1 ≤ op.toNat ∧ op.toNat ≤ 7 := by
  revert op
  decide

theorem crc8 (ins : List Byte) : Statement (.crc8 ins) := ⟨length_encode _, fields_cmdByte 0x1#4 (by decide)⟩
theorem crcchk (ins : List Byte) : Statement (.crcchk ins) := ⟨length_encode _, fields_cmdByte 0x2#4 (by decide)⟩
theorem encode (ins : List Byte) : Statement (.encode ins) := ⟨length_encode _, fields_cmdByte 0x3#4 (by decide)⟩
theorem decpairs (ins : List Byte) : Statement (.decpairs ins) := ⟨length_encode _, fields_cmdByte 0x4#4 (by decide)⟩
theorem f32rec (ins : List Byte) : Statement (.f32rec ins) := ⟨length_encode _, fields_cmdByte 0x5#4 (by decide)⟩
theorem decmeas (ins : List Byte) : Statement (.decmeas ins) := ⟨length_encode _, fields_cmdByte 0x6#4 (by decide)⟩
theorem decstat (ins : List Byte) : Statement (.decstat ins) := ⟨length_encode _, fields_cmdByte 0x7#4 (by decide)⟩

end Sys2Proof.Laws.RequestShape
end

