-- ==== Sys2Proof/Laws/Port.lean ====
section
/-! SUPPORT. What a whole request is answered with. -/

namespace Sys2Proof.Machine

theorem responseTo_of_answers {request : List Byte} {r : Response}
    (h : ∀ s : State, serveRequest request s = .next (s.putResponse r)) : responseTo request = r.bytes := by
  simp [responseTo, h]

/-- Serving a whole request empties `rx` and puts its response in `tx`, in every state. -/
theorem serveRequest_of_whole {request : List Byte} (h : WholeRequest request) (s : State) :
    serveRequest request s = .next { s with rx := [], tx := responseTo request } := by
  obtain ⟨r, hr⟩ := serveRequest_of_complete h
  rw [hr, responseTo_of_answers hr]
  rfl

end Sys2Proof.Machine
end

