-- ==== Sys2Proof/Machine/Asm.lean ====
section
/-! DEFINITION. The spec's own one-line writing of requests and responses (spec/30_encoding.md R61). No step of the
machine uses anything of this file. -/

namespace Sys2Proof.Machine

/-- One hexadecimal digit. -/
def hexDigit (n : Nat) : Char := if n < 10 then Char.ofNat (48 + n) else Char.ofNat (55 + n)

/-- A byte as two hexadecimal digits without a prefix (R61). -/
def hexByte (b : Byte) : String := String.ofList [hexDigit (b.toNat / 16), hexDigit (b.toNat % 16)]

/-- The operand bytes after a mnemonic: nothing for a request with none, else separated by commas (R61). -/
def asmOperands : List Byte → String
  | [] => ""
  | ins => " " ++ ", ".intercalate (ins.map hexByte)

/-- `MNEMONIC b0, b1, ..., bn-1` (R61). -/
def asmRequest (i : Instr) : String := i.mnemonic ++ asmOperands i.operands

/-- `.rsv CC` with operands: a request with the raw `CMD` byte `CC` (R61). -/
def asmRaw (cmd : Byte) (ins : List Byte) : String := ".rsv " ++ hexByte cmd ++ asmOperands ins

/-- `-> STS RLEN: payload` (R61). -/
def asmResponse (r : Response) : String :=
  "-> " ++ hexByte (stsByte r.sts) ++ " " ++ "".intercalate ((halfBytes (BitVec.ofNat 16 r.payload.length)).map hexByte) ++ ":"
    ++ "".intercalate (r.payload.map fun b => " " ++ hexByte b)

end Sys2Proof.Machine
end

