-- ==== Sys2Proof/Tests/Slice0.lean ====
section
/-! SUPPORT. Tests. Expected values are those of spec/95_test_vectors.md (its section is named at each group); the
witnesses show states and operands that meet the hypotheses of the statements. -/

set_option maxRecDepth 20000

namespace Sys2Proof.Tests

open Machine

/-! ### Well-formedness: one ill-formed term for each constructor (R47: `LEN` has 16 bits) -/

theorem too_long : 65535 < (List.replicate 65536 0x00#8).length := by
  rw [List.length_replicate]
  decide

theorem smoke_crc8 : ¬ (Instr.crc8 (List.replicate 65536 0x00#8)).WellFormed := Nat.not_le.mpr too_long
theorem smoke_crcchk : ¬ (Instr.crcchk (List.replicate 65536 0x00#8)).WellFormed := Nat.not_le.mpr too_long
theorem smoke_encode : ¬ (Instr.encode (List.replicate 65536 0x00#8)).WellFormed := Nat.not_le.mpr too_long
theorem smoke_decpairs : ¬ (Instr.decpairs (List.replicate 65536 0x00#8)).WellFormed := Nat.not_le.mpr too_long
theorem smoke_f32rec : ¬ (Instr.f32rec (List.replicate 65536 0x00#8)).WellFormed := Nat.not_le.mpr too_long
theorem smoke_decmeas : ¬ (Instr.decmeas (List.replicate 65536 0x00#8)).WellFormed := Nat.not_le.mpr too_long
theorem smoke_decstat : ¬ (Instr.decstat (List.replicate 65536 0x00#8)).WellFormed := Nat.not_le.mpr too_long
theorem smoke_longest_request : (Instr.decpairs (List.replicate 65535 0x00#8)).WellFormed :=
  Nat.le_of_eq List.length_replicate

/-! ### Decoding: words written out from R47, R48 and R57; `CMD` bit by bit as `RSV` then `OP` -/

theorem test_decode_crc8 : decode [0b00000001#8, 0x00#8, 0x02#8, 0xBE#8, 0xEF#8] = .ok (.crc8 [0xBE#8, 0xEF#8]) [] := by
  decide
theorem test_decode_crcchk :
    decode [0b00000010#8, 0x00#8, 0x03#8, 0xBE#8, 0xEF#8, 0x92#8] = .ok (.crcchk [0xBE#8, 0xEF#8, 0x92#8]) [] := by decide
theorem test_decode_encode :
    decode [0b00000011#8, 0x00#8, 0x02#8, 0x12#8, 0x34#8, 0x99#8] = .ok (.encode [0x12#8, 0x34#8]) [0x99#8] := by decide
theorem test_decode_decpairs : decode [0b00000100#8, 0x00#8, 0x00#8] = .ok (.decpairs []) [] := by decide
theorem test_decode_f32rec :
    decode [0b00000101#8, 0x00#8, 0x06#8, 0x3F#8, 0x80#8, 0xD0#8, 0x00#8, 0x00#8, 0x81#8] =
      .ok (.f32rec [0x3F#8, 0x80#8, 0xD0#8, 0x00#8, 0x00#8, 0x81#8]) [] := by decide
theorem test_decode_decmeas : decode [0b00000110#8, 0x00#8, 0x01#8, 0xFF#8] = .ok (.decmeas [0xFF#8]) [] := by decide
theorem test_decode_decstat :
    decode [0b00000111#8, 0x00#8, 0x03#8, 0x00#8, 0x01#8, 0xB0#8] = .ok (.decstat [0x00#8, 0x01#8, 0xB0#8]) [] := by decide
theorem test_decode_len_is_big_endian :
    decode ([0b00000100#8, 0x01#8, 0x02#8] ++ List.replicate 258 0x00#8) =
      .ok (.decpairs (List.replicate 258 0x00#8)) [] := by decide
theorem test_reject_rsv : decode [0x11#8, 0x00#8, 0x00#8] = .rejected (.reservedRsv 0x1#4) := by decide
theorem test_reject_op_zero : decode [0x00#8, 0x00#8, 0x00#8] = .rejected (.reservedOp 0x0#4) := by decide
theorem test_reject_op_eight : decode [0x08#8, 0x00#8, 0x00#8] = .rejected (.reservedOp 0x8#4) := by decide
theorem test_reject_truncated : decode [0x01#8, 0x00#8, 0x02#8, 0xBE#8] = .rejected .truncated := by decide

/-- Every `CMD` byte decodes as the row of spec/opcode_table.json that matches it, and to nothing if none does. -/
theorem test_decode_follows_the_table :
    ∀ cmd : Byte, (match decodeCmd cmd [] [] with | .ok i _ => some i.mnemonic | .rejected _ => none) =
      (opcodeTable.find? fun row => cmd &&& row.2.2 == row.2.1).map (·.1) := by decide

theorem test_table_rows_do_not_overlap :
    opcodeTable.Pairwise fun a b => ¬ ∃ cmd : Byte, cmd &&& a.2.2 = a.2.1 ∧ cmd &&& b.2.2 = b.2.1 := by
  simp only [opcodeTable, List.pairwise_cons]
  decide

theorem test_encode_crc8 : encode (.crc8 [0xBE#8, 0xEF#8]) = [0x01#8, 0x00#8, 0x02#8, 0xBE#8, 0xEF#8] := by decide

/-- A table word with its operands below the 8 fixed bits of the row: `DECSTAT 00, 01, B0`. -/
theorem test_table_word : decodeTableWord 48 0xB00100030007 = some (.decstat [0x00#8, 0x01#8, 0xB0#8]) := by decide

/-- The fixed values of R8 agree: ten channels of two groups each are a measurement. -/
theorem test_measurement_length : measLen = channelCount * channelBytesIn ∧ channelBytesIn = 2 * groupBytes := by decide

/-! ### The checksum (section 2.1: the trace of BE EF) -/

theorem test_trace_be :
    (List.range 9).map (fun n => crcRounds n (0xFF#8 ^^^ 0xBE#8)) =
      [0x41#8, 0x82#8, 0x35#8, 0x6A#8, 0xD4#8, 0x99#8, 0x03#8, 0x06#8, 0x0C#8] := by decide
theorem test_trace_ef :
    (List.range 9).map (fun n => crcRounds n (0x0C#8 ^^^ 0xEF#8)) =
      [0xE3#8, 0xF7#8, 0xDF#8, 0x8F#8, 0x2F#8, 0x5E#8, 0xBC#8, 0x49#8, 0x92#8] := by decide

/-! ### One step each (sections 2.2 to 2.9) -/

/-- The bytes of the response one step gives to a whole request at hand after reset. -/
def answer (request : List Byte) : Option (List Byte) :=
  match step (loadRequest request State.reset) with
  | .next t => some t.tx
  | .fault _ => none
  | .refused _ => none

theorem test_crc8 : answer [0x01#8, 0x00#8, 0x02#8, 0xBE#8, 0xEF#8] = some [0x00#8, 0x00#8, 0x01#8, 0x92#8] := by decide
theorem test_crc8_length : answer [0x01#8, 0x00#8, 0x01#8, 0x12#8] = some [0x04#8, 0x00#8, 0x00#8] := by decide
theorem test_crcchk_false :
    answer [0x02#8, 0x00#8, 0x03#8, 0xBE#8, 0xEF#8, 0x93#8] = some [0x00#8, 0x00#8, 0x01#8, 0x00#8] := by decide
theorem test_crcchk_true :
    answer [0x02#8, 0x00#8, 0x03#8, 0xFF#8, 0xFF#8, 0xAC#8] = some [0x00#8, 0x00#8, 0x01#8, 0x01#8] := by decide
theorem test_encode :
    answer [0x03#8, 0x00#8, 0x06#8, 0x12#8, 0x34#8, 0xBE#8, 0xEF#8, 0x00#8, 0x00#8] =
      some [0x00#8, 0x00#8, 0x08#8, 0x12#8, 0x34#8, 0xBE#8, 0xEF#8, 0x92#8, 0x00#8, 0x00#8, 0x81#8] := by decide
theorem test_encode_odd :
    answer [0x03#8, 0x00#8, 0x03#8, 0x12#8, 0x34#8, 0x03#8] = some [0x02#8, 0x00#8, 0x00#8] := by decide
theorem test_decpairs_offset :
    answer [0x04#8, 0x00#8, 0x06#8, 0x03#8, 0x00#8, 0xAC#8, 0x00#8, 0x00#8, 0x80#8] =
      some [0x01#8, 0x00#8, 0x02#8, 0x00#8, 0x03#8] := by decide
theorem test_decpairs_length :
    answer [0x04#8, 0x00#8, 0x05#8, 0x12#8, 0x34#8, 0x03#8, 0x00#8, 0xAC#8] = some [0x03#8, 0x00#8, 0x00#8] := by decide
theorem test_f32rec_pi :
    answer [0x05#8, 0x00#8, 0x06#8, 0x40#8, 0x49#8, 0xBD#8, 0x0F#8, 0xDB#8, 0xF6#8] =
      some [0x00#8, 0x00#8, 0x04#8, 0x40#8, 0x49#8, 0x0F#8, 0xDB#8] := by decide
theorem test_f32rec_both_wrong :
    answer [0x05#8, 0x00#8, 0x06#8, 0x3F#8, 0x80#8, 0xD1#8, 0x00#8, 0x00#8, 0x80#8] =
      some [0x01#8, 0x00#8, 0x02#8, 0x00#8, 0x00#8] := by decide

/-- The buffer M1 of section 2.7. -/
def m1 : List Byte :=
  [0x3F#8, 0x80#8, 0xD0#8, 0x00#8, 0x00#8, 0x81#8] ++
    (List.replicate 9 [0x00#8, 0x00#8, 0x81#8, 0x00#8, 0x00#8, 0x81#8]).flatten

theorem test_decmeas_m1 :
    answer ([0x06#8, 0x00#8, 0x3C#8] ++ m1) =
      some ([0x00#8, 0x00#8, 0x28#8, 0x3F#8, 0x80#8, 0x00#8, 0x00#8] ++ List.replicate 36 0x00#8) := by decide
theorem test_decmeas_lowest_offset :
    answer ([0x06#8, 0x00#8, 0x3C#8] ++ (m1.set 10 0x01#8).set 40 0x01#8) =
      some [0x01#8, 0x00#8, 0x02#8, 0x00#8, 0x09#8] := by decide
theorem test_decstat_byte_order :
    answer [0x07#8, 0x00#8, 0x03#8, 0x01#8, 0x00#8, 0x75#8] = some [0x00#8, 0x00#8, 0x01#8, 0x00#8] := by decide
theorem test_decstat_true :
    answer [0x07#8, 0x00#8, 0x03#8, 0x00#8, 0x01#8, 0xB0#8] = some [0x00#8, 0x00#8, 0x01#8, 0x01#8] := by decide
theorem test_illegal_before_checksum :
    answer ([0x16#8, 0x00#8, 0x3C#8] ++ List.replicate 60 0xFF#8) = some [0x05#8, 0x00#8, 0x00#8] := by decide
theorem test_illegal_without_operands : answer [0x18#8, 0x00#8, 0x00#8] = some [0x05#8, 0x00#8, 0x00#8] := by decide
theorem test_fetched_word_runs :
    (match step (State.reset.withFetchWord 8 0x04) with | .next t => some t.tx | _ => none) =
      some [0x00#8, 0x00#8, 0x00#8] := by decide

/-! ### `IN_CAP` (sections 2.4 and 2.5: the rows that name a capacity) -/

theorem test_encode_over_cap_sixty :
    withinCap 60 opEncode ([0x12#8, 0x34#8] ++ List.replicate 60 0x00#8) = raise .operandLength := by decide
theorem test_encode_within_cap_sixty_two :
    withinCap 62 opEncode ([0x12#8, 0x34#8] ++ List.replicate 60 0x00#8) =
      okay ([0x12#8, 0x34#8] ++ (List.replicate 30 [0x00#8, 0x00#8, 0x81#8]).flatten) := by decide
theorem test_decpairs_cap_sixty_one :
    withinCap 61 opDecpairs (List.replicate 61 0xFF#8) = raise .invalidBufferLength := by decide

/-! ### The port (section 3, P5) -/

theorem test_read_in_the_middle_of_a_request :
    (match step { State.reset with rx := [0x06#8, 0x00#8, 0x3C#8, 0x3F#8], pending := [.read] } with
      | .fault .readWithNoResponse => true | _ => false) = true := by decide
theorem test_reset_in_the_middle_of_a_request :
    (match step { State.reset with rx := [0x06#8, 0x00#8, 0x3C#8, 0x3F#8], pending := [.reset] } with
      | .next t => t == State.reset | _ => false) = true := by decide

/-! ### Observers: R84, R81 and R61 -/

theorem test_channel_seven :
    channelPattern (List.replicate 28 0x00#8 ++ [0x42#8, 0xCA#8, 0x00#8, 0x00#8] ++ List.replicate 8 0x00#8) .pm4Count =
      some 0x42CA0000#32 := by decide
theorem test_reading_ten : floatReading 0x41200000#32 = .finite false 10 := by
  simp [floatReading, exponentField, fractionField, signBit, BitVec.extractLsb']
  norm_num
theorem test_asm_request : asmRequest (.crcchk [0xBE#8, 0xEF#8, 0x92#8]) = "CRCCHK BE, EF, 92" := by decide
theorem test_asm_raw : asmRaw 0x08#8 [] = ".rsv 08" := by decide
theorem test_asm_response : asmResponse (raiseMismatch 3) = "-> 01 0002: 00 03" := by decide

end Sys2Proof.Tests
end

