-- ==== Sys2Proof/Tests/Witnesses.lean ====
section
/-! SUPPORT. For every statement of Certificates/Slice0/Obligations.lean that has hypotheses, a concrete state and
operands that meet all of them together; where a statement has clauses, one for each clause, at a boundary. -/

set_option maxRecDepth 20000

namespace Sys2Proof.Tests

open Machine

/-- A state with a byte of a request at hand: `rx`, `tx` and the next event. -/
def at_ (rx tx : List Byte) (e : PortEvent) : State := { rx := rx, tx := tx, pending := [e], received := [] }

/-- A request of `CRC8 BE, EF`, as bytes. -/
def crc8Request : List Byte := [0x01#8, 0x00#8, 0x02#8, 0xBE#8, 0xEF#8]

theorem witness_reset_event : (at_ [0x06#8] [] .reset).pending = .reset :: [] := rfl

theorem witness_host_write_open :
    (at_ [0x01#8, 0x00#8, 0x02#8] [] (.write 0xBE#8)).pending = .write 0xBE#8 :: [] ∧
      RequestOpen ([0x01#8, 0x00#8, 0x02#8] ++ [0xBE#8]) := by
  refine ⟨rfl, fun len h => ?_⟩
  have : len = 2 := by simpa [lenField, half] using h.symm
  subst this
  decide

theorem witness_host_write_completes :
    (at_ [0x01#8, 0x00#8] [] (.write 0x00#8)).pending = .write 0x00#8 :: [] ∧ (at_ [0x01#8, 0x00#8] [] (.write 0x00#8)).tx = [] ∧
      [0x01#8, 0x00#8] ++ [0x00#8] = 0x01#8 :: 0x00#8 :: 0x00#8 :: ([] : List Byte) ∧
      ([] : List Byte).length = 256 * (0x00#8).toNat + (0x00#8).toNat := by decide

theorem witness_step_runs_decoded :
    (at_ crc8Request.dropLast [] (.write 0xEF#8)).pending = .write 0xEF#8 :: [] ∧
      decode (crc8Request.dropLast ++ [0xEF#8]) = .ok (.crc8 [0xBE#8, 0xEF#8]) [] := by decide

theorem witness_empty_request :
    (at_ [0x04#8, 0x00#8] [] (.write 0x00#8)).rx = [0x04#8, 0x00#8] ∧ (at_ [0x04#8, 0x00#8] [] (.write 0x00#8)).tx = [] ∧
      (at_ [0x04#8, 0x00#8] [] (.write 0x00#8)).pending = .write 0x00#8 :: [] := by decide

theorem witness_read_empty : (at_ [] [] .read).pending = .read :: [] ∧ (at_ [] [] .read).tx = [] := by decide
theorem witness_read_byte : (at_ [] [0x05#8] .read).pending = .read :: [] ∧ (at_ [] [0x05#8] .read).tx = 0x05#8 :: [] := by
  decide
theorem witness_write_while_unread :
    (at_ [] [0x00#8] (.write 0x01#8)).pending = .write 0x01#8 :: [] ∧ (at_ [] [0x00#8] (.write 0x01#8)).tx ≠ [] := by decide
theorem witness_nothing_pending : State.reset.pending = [] := rfl

theorem witness_illegal_rsv :
    [0x10#8, 0x00#8] ++ [0x00#8] = 0x10#8 :: 0x00#8 :: 0x00#8 :: ([] : List Byte) ∧ rsvField 0x10#8 ≠ 0x0#4 := by decide
theorem witness_illegal_op_zero : rsvField 0x00#8 = 0x0#4 ∧ opField 0x00#8 = 0x0#4 := by decide
theorem witness_illegal_op_eight : rsvField 0x08#8 = 0x0#4 ∧ 0x8#4 ≤ opField 0x08#8 := by decide

theorem witness_fetched_word : decodeTableWord 8 0x07 = some (.decstat []) := by decide

theorem witness_crc8_length : ([0x12#8] : List Byte).length ≠ 2 := by decide
theorem witness_group_valid : crc8 0xFF#8 0xFF#8 = 0xAC#8 := by decide
theorem witness_group_invalid : crc8 0xFF#8 0xFF#8 ≠ 0xFF#8 := by decide
theorem witness_crcchk_length : ([0xBE#8, 0xEF#8] : List Byte).length ≠ 3 := by decide

theorem witness_computed_checksum : ∃ t : State,
    exec (.crc8 [0xBE#8, 0xEF#8]) State.reset = .next t ∧ t.tx.getLast? = some 0x92#8 := by
  refine ⟨_, rfl, ?_⟩
  decide

theorem witness_corruption : crc8 0x03#8 0x00#8 = 0xAC#8 ∧ (0x04#8 : Byte) ≠ 0x03#8 ∧ (0x01#8 : Byte) ≠ 0x00#8 ∧
    (0xAD#8 : Byte) ≠ 0xAC#8 := by decide

/-- Up to 60 operand bytes are within any capacity (R9). -/
theorem sixty_fits {n : Nat} (h : n ≤ 60) : n ≤ Config.inCap := h.trans inCap_range.1

theorem witness_encode_even : 2 ≤ [0x12#8, 0x34#8].length ∧ ([0x12#8, 0x34#8].length - 2) % 2 = 0 ∧
    [0x12#8, 0x34#8].length ≤ Config.inCap := ⟨by decide, by decide, sixty_fits (by decide)⟩
theorem witness_encode_odd : 2 ≤ [0x12#8, 0x34#8, 0x03#8].length ∧ ([0x12#8, 0x34#8, 0x03#8].length - 2) % 2 = 1 ∧
    [0x12#8, 0x34#8, 0x03#8].length ≤ Config.inCap := ⟨by decide, by decide, sixty_fits (by decide)⟩
theorem witness_encode_short : [0x12#8].length < 2 := by decide

theorem witness_decpairs_valid : ([] : List Byte).length % 3 = 0 ∧ ([] : List Byte).length ≤ Config.inCap ∧
    ∀ g, g < ([] : List Byte).length / 3 → groupValidAt [] (3 * g) = true :=
  ⟨rfl, sixty_fits (by decide), fun g h => by simp at h⟩
theorem witness_decpairs_mismatch :
    let ins := [0x03#8, 0x00#8, 0xAC#8, 0x00#8, 0x00#8, 0x80#8]
    ins.length % 3 = 0 ∧ ins.length ≤ Config.inCap ∧ 1 < ins.length / 3 ∧ groupValidAt ins (3 * 1) = false ∧
      ∀ j, j < 1 → groupValidAt ins (3 * j) = true :=
  ⟨by decide, sixty_fits (by decide), by decide, by decide, by decide⟩
theorem witness_decpairs_length : [0xFF#8].length % 3 ≠ 0 ∧ [0xFF#8].length ≤ Config.inCap :=
  ⟨by decide, sixty_fits (by decide)⟩

theorem witness_round_trip : ∃ frame : List Byte, [0x03#8, 0x00#8].length % 2 = 0 ∧
    exec (.encode [0x12#8, 0x34#8, 0x03#8, 0x00#8]) State.reset =
      .next { State.reset with rx := [], tx := (okay frame).bytes } ∧ frame.length - 2 ≤ Config.inCap := by
  refine ⟨[0x12#8, 0x34#8, 0x03#8, 0x00#8, 0xAC#8], by decide, ?_, sixty_fits (by decide)⟩
  show respond (withinCap _ opEncode _) _ = _
  rw [withinCap_of_le_sixty (by decide), show opEncode [0x12#8, 0x34#8, 0x03#8, 0x00#8] =
    okay [0x12#8, 0x34#8, 0x03#8, 0x00#8, 0xAC#8] by decide]
  rfl

theorem witness_pinpoint :
    exec (.decpairs [0x03#8, 0x00#8, 0xAC#8]) State.reset =
      .next { State.reset with rx := [], tx := (okay [0x03#8, 0x00#8]).bytes } ∧
    0 < [0x03#8, 0x00#8, 0xAC#8].length / 3 ∧ [0x03#8, 0x00#8, 0xAC#8][3 * 0 + 2]? = some 0xAC#8 ∧
    (0xAD#8 : Byte) ≠ 0xAC#8 := by
  refine ⟨?_, by decide, by decide, by decide⟩
  show respond (withinCap _ opDecpairs _) _ = _
  rw [withinCap_of_le_sixty (by decide), show opDecpairs [0x03#8, 0x00#8, 0xAC#8] = okay [0x03#8, 0x00#8] by
    decide]
  rfl

theorem witness_f32rec_valid : crc8 0x3F#8 0x80#8 = 0xD0#8 ∧ crc8 0x00#8 0x00#8 = 0x81#8 := by decide
theorem witness_f32rec_high : crc8 0x3F#8 0x80#8 ≠ 0xD1#8 := by decide
theorem witness_f32rec_low : crc8 0x3F#8 0x80#8 = 0xD0#8 ∧ crc8 0x00#8 0x00#8 ≠ 0x80#8 := by decide
theorem witness_f32rec_length : ([] : List Byte).length ≠ 6 := by decide

theorem witness_decmeas_valid : m1.length = 60 ∧ ∀ g, g < 20 → groupValidAt m1 (3 * g) = true := by decide
theorem witness_decmeas_last_group :
    (m1.set 59 0x80#8).length = 60 ∧ groupValidAt (m1.set 59 0x80#8) (6 * 9 + 3) = false ∧
      ∀ g, g < 19 → groupValidAt (m1.set 59 0x80#8) (3 * g) = true := by decide
theorem witness_decmeas_first_group : groupValidAt (List.replicate 60 0xFF#8) (6 * 0 + 0) = false := by decide
theorem witness_decmeas_length : (m1 ++ [0x00#8]).length ≠ 60 := by decide

theorem exec_f32rec_lane {ins : List Byte} {i : Nat} {r : Response} (h : opF32rec (lane ins i) = r) :
    exec (.f32rec (lane ins i)) State.reset = .next { State.reset with rx := [], tx := r.bytes } := by
  show respond (withinCap _ opF32rec _) _ = _
  have short : (lane ins i).length ≤ 60 := (List.length_take_le 6 _).trans (by decide)
  rw [withinCap_of_le_sixty short, h]
  rfl

theorem witness_lanes_succeed : ∀ i, i < 10 → exec (.f32rec (lane m1 i)) State.reset =
    .next { State.reset with rx := [], tx := (okay (channelPatterns (lane m1 i))).bytes } := fun i h =>
  exec_f32rec_lane ((by decide : ∀ i, i < 10 → opF32rec (lane m1 i) = okay (channelPatterns (lane m1 i))) i h)

theorem witness_lane_fails :
    exec (.f32rec (lane (m1.set 21 0x01#8) 3)) State.reset =
      .next { State.reset with rx := [], tx := (raiseMismatch 3).bytes } ∧
    ∀ j, j < 3 → ∃ w, exec (.f32rec (lane (m1.set 21 0x01#8) j)) State.reset =
      .next { State.reset with rx := [], tx := (okay w).bytes } :=
  ⟨exec_f32rec_lane (by decide), fun j h => ⟨channelPatterns (lane m1 j), exec_f32rec_lane
    ((by decide : ∀ j, j < 3 → opF32rec (lane (m1.set 21 0x01#8) j) = okay (channelPatterns (lane m1 j))) j h)⟩⟩

theorem witness_channel_map : m1.length = 60 ∧
    exec (.decmeas m1) State.reset =
      .next { State.reset with rx := [], tx := (okay ([0x3F#8, 0x80#8, 0x00#8, 0x00#8] ++ List.replicate 36 0x00#8)).bytes } := by
  refine ⟨by decide, ?_⟩
  show respond (withinCap _ opDecmeas _) _ = _
  rw [withinCap_of_le_sixty (by decide), show opDecmeas m1 =
    okay ([0x3F#8, 0x80#8, 0x00#8, 0x00#8] ++ List.replicate 36 0x00#8) by decide]
  rfl

theorem witness_decstat_other : crc8 0x01#8 0x00#8 = 0x75#8 ∧ ¬ ((0x01#8 : Byte) = 0x00#8 ∧ (0x00#8 : Byte) = 0x01#8) := by
  decide
theorem witness_decstat_invalid : crc8 0x00#8 0x01#8 ≠ 0xB1#8 := by decide
theorem witness_decstat_length : [0x00#8, 0x01#8].length ≠ 3 := by decide

theorem witness_over_capacity : Config.inCap < (Instr.encode (List.replicate 43691 0x00#8)).operands.length := by
  show _ < (List.replicate 43691 0x00#8).length
  rw [List.length_replicate]
  have := inCap_range
  omega

theorem witness_first_error : expectedError Config.inCap (.decpairs [0xFF#8]) = some (raise .invalidBufferLength) := by
  decide
theorem witness_no_error : expectedError Config.inCap (.decpairs []) = none := by decide

theorem witness_success : exec (.decpairs []) State.reset = .next { State.reset with rx := [], tx := (okay []).bytes } := by
  show respond (withinCap _ opDecpairs _) _ = _
  rw [withinCap_of_le_sixty (by decide)]
  rfl

theorem witness_whole_requests : WholeRequest crc8Request ∧ WholeRequest [0x18#8, 0x00#8, 0x00#8] := by decide

theorem witness_same_request : WholeRequest crc8Request ∧ crc8Request.dropLast ++ [0xEF#8] = crc8Request ∧
    (at_ crc8Request.dropLast [] (.write 0xEF#8)).tx = [] := by decide

theorem witness_well_formed : (Instr.decmeas []).WellFormed := by decide
theorem witness_decodes : decode crc8Request = .ok (.crc8 [0xBE#8, 0xEF#8]) [] := by decide

theorem witness_port_inv_after_reset : PortInv State.reset ∧ step State.reset = .next State.reset :=
  ⟨⟨fun len h => by simp [lenField] at h, fun h => absurd rfl h, .inl rfl⟩, rfl⟩

/-- The invariant in the middle of a response: the host has read the status of `CRC8 BE, EF` and reads on. -/
theorem witness_port_inv_in_a_response :
    PortInv { rx := [], tx := [0x00#8, 0x01#8, 0x92#8], pending := [.read], received := [0x00#8] } ∧
      step { rx := [], tx := [0x00#8, 0x01#8, 0x92#8], pending := [.read], received := [0x00#8] } =
        .next { rx := [], tx := [0x01#8, 0x92#8], pending := [], received := [0x00#8, 0x00#8] } :=
  ⟨⟨fun len h => by simp [lenField] at h, fun _ => rfl,
    .inr ⟨crc8Request, [0x00#8], okay [0x92#8], by decide, by decide, by decide, List.suffix_rfl, by decide⟩⟩, rfl⟩

/-- What the invariant rules out: bytes in `tx` that no request is answered with. -/
theorem witness_port_inv_refuses (s : State) (h : s = { State.reset with tx := [0x06#8, 0x00#8, 0x00#8] }) :
    ¬ PortInv s := by
  subst h
  rintro ⟨-, -, h | ⟨_, read, r, _, _, _, hread, hall⟩⟩
  · simp at h
  · have : read = [] := List.suffix_nil.mp hread
    subst this
    have hsts : (0x06#8 : Byte) = stsByte r.sts := (List.cons.inj (hall.trans (response_bytes r))).1
    cases hr : r.sts <;> simp [hr, stsByte] at hsts

/-- After reset, with the given events to come. -/
def withEvents (evs : List PortEvent) : State := { State.reset with pending := evs }

theorem witness_worked_example : (withEvents (transaction crc8Request)).Idle ∧
    (withEvents (transaction crc8Request)).pending = transaction crc8Request ++ [] := by decide
theorem witness_session :
    (∀ request ∈ [crc8Request, [0x18#8, 0x00#8, 0x00#8]], WholeRequest request) ∧
      (withEvents (session [crc8Request, [0x18#8, 0x00#8, 0x00#8]])).Idle ∧
      (withEvents (session [crc8Request, [0x18#8, 0x00#8, 0x00#8]])).pending =
        session [crc8Request, [0x18#8, 0x00#8, 0x00#8]] ++ [] := by decide
theorem witness_resynchronise : WholeRequest crc8Request ∧
    (withEvents (.reset :: transaction crc8Request)).pending = .reset :: (transaction crc8Request ++ []) := by decide
theorem witness_partial_request : WholeRequest crc8Request ∧ 4 < crc8Request.length ∧
    (withEvents ((crc8Request.take 4).map .write ++ [.read])).pending =
      (crc8Request.take 4).map .write ++ .read :: [] := by decide

end Sys2Proof.Tests
end

