-- ==== Sys2Proof/Proofs/ChecksumPolynomial.lean ====
section
/-! SUPPORT. Bytes as polynomials over GF(2) (R3), and the rounds of the checksum (R63) as multiplications by `x` in
GF(2)[x] modulo the generator. -/

namespace Sys2Proof.Machine

open Polynomial

/-- A byte read as a polynomial over GF(2): bit `i` is the coefficient of `x ^ i` (R3). -/
noncomputable def bytePoly (b : Byte) : (ZMod 2)[X] :=
  ∑ i ∈ Finset.range 8, if b.getLsbD i then X ^ i else 0

/-- The generator of the checksum, `crcPoly` with its `x ^ 8` written out (R3). -/
noncomputable def crcGenerator : (ZMod 2)[X] := X ^ 8 + X ^ 5 + X ^ 4 + 1

/-- A byte's polynomial modulo the generator. -/
noncomputable def byteResidue (b : Byte) : AdjoinRoot crcGenerator := AdjoinRoot.mk crcGenerator (bytePoly b)

/-- XOR of bytes is addition of their polynomials. -/
theorem bytePoly_xor (a b : Byte) : bytePoly (a ^^^ b) = bytePoly a + bytePoly b := by
  simp only [bytePoly, BitVec.getLsbD_xor, ← Finset.sum_add_distrib]
  refine Finset.sum_congr rfl fun i _ => ?_
  cases a.getLsbD i <;> cases b.getLsbD i <;> simp [CharTwo.add_self_eq_zero]

theorem byteResidue_xor (a b : Byte) : byteResidue (a ^^^ b) = byteResidue a + byteResidue b := by
  rw [byteResidue, bytePoly_xor, map_add, byteResidue, byteResidue]

/-- The polynomial of the byte that a round adds. -/
theorem bytePoly_crcPoly : bytePoly crcPoly = 1 + X ^ 4 + X ^ 5 := by
  simp [bytePoly, crcPoly, Finset.sum_range_succ]

/-- Modulo the generator, `x ^ 8` is the byte that a round adds. -/
theorem mk_X_pow_eight : AdjoinRoot.mk crcGenerator (X ^ 8) = byteResidue crcPoly := by
  have hsum : X ^ 8 + bytePoly crcPoly = crcGenerator := by
    rw [bytePoly_crcPoly, crcGenerator]
    ring
  rw [byteResidue, AdjoinRoot.mk_eq_mk, CharTwo.sub_eq_add, hsum]

@[simp] theorem getLsbD_shl8_zero (a : Byte) : (shl8 a).getLsbD 0 = false := by simp [shl8]

theorem getLsbD_shl8_succ (a : Byte) {i : Nat} (hi : i < 7) : (shl8 a).getLsbD (i + 1) = a.getLsbD i := by
  have hi' : i + 1 < 8 := Nat.succ_lt_succ hi
  rw [shl8, BitVec.getLsbD_shiftLeft]
  simp [hi']

/-- The truncating shift multiplies by `x` and drops the `x ^ 8` that the high bit becomes (R11). -/
theorem X_mul_bytePoly (a : Byte) :
    X * bytePoly a = bytePoly (shl8 a) + if a.getLsbD 7 then X ^ 8 else 0 := by
  have hlow : bytePoly (shl8 a) = ∑ i ∈ Finset.range 7, if a.getLsbD i then X ^ (i + 1) else 0 := by
    rw [bytePoly, Finset.sum_range_succ', getLsbD_shl8_zero, if_neg Bool.false_ne_true, add_zero]
    exact Finset.sum_congr rfl fun i hi => by rw [getLsbD_shl8_succ a (Finset.mem_range.mp hi)]
  rw [hlow, bytePoly, Finset.mul_sum, Finset.sum_range_succ]
  simp only [mul_ite, mul_zero, ← pow_succ']

/-- One round multiplies the accumulator by `x`, up to a multiple of the generator (R63). -/
theorem byteResidue_crcRound (acc : Byte) :
    byteResidue (crcRound acc) = AdjoinRoot.root crcGenerator * byteResidue acc := by
  rw [← AdjoinRoot.mk_X, byteResidue, byteResidue, ← map_mul, X_mul_bytePoly, crcRound]
  by_cases hhigh : acc.getLsbD 7
  · rw [if_pos hhigh, if_pos hhigh, bytePoly_xor, map_add, map_add, mk_X_pow_eight, byteResidue]
  · rw [if_neg hhigh, if_neg hhigh, add_zero]

/-- `n` rounds multiply the accumulator by `x ^ n`. -/
theorem byteResidue_crcRounds (n : Nat) (acc : Byte) :
    byteResidue (crcRounds n acc) = AdjoinRoot.root crcGenerator ^ n * byteResidue acc := by
  induction n generalizing acc with
  | zero => simp [crcRounds]
  | succ n ih => rw [crcRounds, ih, byteResidue_crcRound, pow_succ, mul_assoc]

/-- Folding a byte in adds its polynomial and multiplies by `x ^ 8` (R63). -/
theorem byteResidue_crcStep (acc b : Byte) :
    byteResidue (crcStep acc b) = AdjoinRoot.root crcGenerator ^ 8 * (byteResidue acc + byteResidue b) := by
  rw [crcStep, byteResidue_crcRounds, byteResidue_xor]

/-- The checksum of a chunk modulo the generator (R64). -/
theorem byteResidue_crc8 (d0 d1 : Byte) :
    byteResidue (crc8 d0 d1) = AdjoinRoot.mk crcGenerator
      ((bytePoly crcInit + bytePoly d0) * X ^ 16 + bytePoly d1 * X ^ 8) := by
  rw [crc8, byteResidue_crcStep, byteResidue_crcStep]
  simp only [byteResidue, map_add, map_mul, map_pow, AdjoinRoot.mk_X]
  ring

/-- Settles O9: every round multiplies by `x` modulo the generator, so the checksum and the chunk, moved up, have the
same residue, and in characteristic 2 their difference is their sum. -/
theorem checksumIsThePolynomialRemainder : Obligations.ChecksumIsThePolynomialRemainder := by
  intro d0 d1
  have hdvd := AdjoinRoot.mk_eq_mk.mp (byteResidue_crc8 d0 d1).symm
  rwa [CharTwo.sub_eq_add] at hdvd

end Sys2Proof.Machine
end

