-- ==== Sys2Proof/Proofs/LegalResponses.lean ====
section
/-! SUPPORT. Every answer is a legal response (R51 to R53), and the bound R56 gives: at most 65534 payload bytes. -/

namespace Sys2Proof.Machine

/-- A legal response within the bound of R56: 65534 bytes, the longest `ENCODE` result of any capacity. -/
structure Response.LegalAndShort (r : Response) : Prop where
  legal : r.Legal
  short : r.payload.length ≤ 65534

theorem legalAndShort_okay {out : List Byte} (h : out.length ≤ 65534) : (okay out).LegalAndShort where
  legal := ⟨h.trans (by decide), fun hsts => (nomatch hsts), .inl rfl⟩
  short := h

theorem legalAndShort_raise {e : Status} (he : e ≠ .checksumMismatch) : (raise e).LegalAndShort where
  legal := ⟨Nat.zero_le _, fun hsts => absurd hsts he, .inr (.inr rfl)⟩
  short := Nat.zero_le _

theorem legalAndShort_raiseMismatch (off : Nat) : (raiseMismatch off).LegalAndShort where
  legal := ⟨by simp [raiseMismatch], fun _ => rfl, .inr (.inl rfl)⟩
  short := by simp [raiseMismatch]

/-- Behind the capacity check an operation only has to be legal on lists that R9's range can let through. -/
theorem legalAndShort_withinCap {op : List Byte → Response} {ins : List Byte}
    (h : ins.length ≤ 43690 → (op ins).LegalAndShort) : (withinCap Config.inCap op ins).LegalAndShort := by
  by_cases hcap : Config.inCap < ins.length
  · rw [withinCap_of_gt hcap]
    exact legalAndShort_raise (by decide)
  · have hle : ins.length ≤ Config.inCap := Nat.not_lt.mp hcap
    rw [withinCap_of_le hle]
    exact h (hle.trans inCap_range.2)

theorem length_channelPatterns (ins : List Byte) : (channelPatterns ins).length = 4 * (ins.length / 6) := by
  fun_induction channelPatterns ins with
  | case1 h0 h1 hc l0 l1 lc rest ih =>
    simp only [List.length_append, length_patternBytes, ih, List.length_cons]
    omega
  | case2 ins hshort =>
    have : ins.length < 6 := by
      by_contra! hlen
      match ins, hlen with
      | _ :: _ :: _ :: _ :: _ :: _ :: _, _ => exact hshort _ _ _ _ _ _ _ rfl
    simp [Nat.div_eq_of_lt this]

theorem legalAndShort_opCrc8 (ins : List Byte) : (opCrc8 ins).LegalAndShort := by
  unfold opCrc8
  split
  · exact legalAndShort_okay (by simp)
  · exact legalAndShort_raise (by decide)

theorem legalAndShort_opCrcchk (ins : List Byte) : (opCrcchk ins).LegalAndShort := by
  unfold opCrcchk
  split
  · exact legalAndShort_okay (by simp)
  · exact legalAndShort_raise (by decide)

theorem legalAndShort_opEncode {ins : List Byte} (h : ins.length ≤ 43690) : (opEncode ins).LegalAndShort := by
  unfold opEncode
  split
  · split
    · exact legalAndShort_raise (by decide)
    · refine legalAndShort_okay ?_
      simp only [List.length_cons, length_encodePairs] at h ⊢
      omega
  · exact legalAndShort_raise (by decide)

theorem legalAndShort_opDecpairs {ins : List Byte} (h : ins.length ≤ 43690) : (opDecpairs ins).LegalAndShort := by
  unfold opDecpairs
  split
  · exact legalAndShort_raise (by decide)
  · split
    · exact legalAndShort_raiseMismatch _
    · refine legalAndShort_okay ?_
      rw [length_groupData]
      omega

theorem legalAndShort_opF32rec (ins : List Byte) : (opF32rec ins).LegalAndShort := by
  unfold opF32rec
  split
  · split
    · exact legalAndShort_raiseMismatch _
    · split
      · exact legalAndShort_raiseMismatch _
      · exact legalAndShort_okay (by simp)
  · exact legalAndShort_raise (by decide)

theorem legalAndShort_opDecmeas {ins : List Byte} (h : ins.length ≤ 43690) : (opDecmeas ins).LegalAndShort := by
  unfold opDecmeas
  split
  · exact legalAndShort_raise (by decide)
  · split
    · exact legalAndShort_raiseMismatch _
    · refine legalAndShort_okay ?_
      rw [length_channelPatterns]
      omega

theorem legalAndShort_opDecstat (ins : List Byte) : (opDecstat ins).LegalAndShort := by
  unfold opDecstat
  split
  · split
    · exact legalAndShort_raiseMismatch _
    · exact legalAndShort_okay (by simp)
  · exact legalAndShort_raise (by decide)

/-- Every operation answers, in every state, with one and the same legal response. -/
theorem exec_answers_legal (i : Instr) :
    ∃ r : Response, r.LegalAndShort ∧ ∀ s : State, exec i s = .next (s.putResponse r) := by
  cases i with
  | crc8 ins => exact ⟨_, legalAndShort_withinCap fun _ => legalAndShort_opCrc8 ins, exec_crc8 ins⟩
  | crcchk ins => exact ⟨_, legalAndShort_withinCap fun _ => legalAndShort_opCrcchk ins, exec_crcchk ins⟩
  | encode ins => exact ⟨_, legalAndShort_withinCap legalAndShort_opEncode, exec_encode ins⟩
  | decpairs ins => exact ⟨_, legalAndShort_withinCap legalAndShort_opDecpairs, exec_decpairs ins⟩
  | f32rec ins => exact ⟨_, legalAndShort_withinCap fun _ => legalAndShort_opF32rec ins, exec_f32rec ins⟩
  | decmeas ins => exact ⟨_, legalAndShort_withinCap legalAndShort_opDecmeas, exec_decmeas ins⟩
  | decstat ins => exact ⟨_, legalAndShort_withinCap fun _ => legalAndShort_opDecstat ins, exec_decstat ins⟩

/-- A request that decodes is served by its operation. -/
theorem serveRequest_of_decode_ok {request rest : List Byte} {i : Instr} (h : decode request = .ok i rest)
    (s : State) : serveRequest request s = exec i s := by
  simp only [serveRequest, h]

/-- A whole request with an illegal `CMD` byte is answered too (R58): the response is legal whatever the request. -/
theorem serveRequest_answers_legal {request : List Byte} (h : WholeRequest request) :
    ∃ r : Response, r.LegalAndShort ∧ ∀ s : State, serveRequest request s = .next (s.putResponse r) := by
  obtain ⟨cmd, hi, lo, ins, rfl, hlen⟩ := exists_of_requestComplete h
  have hdecode := decode_of_complete (cmd := cmd) hlen
  have hillegal : (raise .illegalOperation).LegalAndShort := legalAndShort_raise (by decide)
  rcases decodeCmd_cases cmd ins [] with ⟨i, hok⟩ | ⟨v, hrsv⟩ | ⟨v, hop⟩
  · obtain ⟨r, hlegal, hexec⟩ := exec_answers_legal i
    exact ⟨r, hlegal, fun s => (serveRequest_of_decode_ok (hdecode.trans hok) s).trans (hexec s)⟩
  · exact ⟨_, hillegal, fun s => by simp only [serveRequest, hdecode.trans hrsv, illegalRequest_eq]⟩
  · exact ⟨_, hillegal, fun s => by simp only [serveRequest, hdecode.trans hop, illegalRequest_eq]⟩

end Sys2Proof.Machine
end

