-- ==== Sys2Proof/Proofs/PortSteps.lean ====
section
/-! SUPPORT. The port's steps one by one (R28, R29, R107), when a request is open and what the decoder says of it, and
the port's invariant. -/

namespace Sys2Proof.Machine

/-! ### Open and complete requests -/

@[simp] theorem requestOpen_nil : RequestOpen [] := fun _ h => nomatch h

/-- While the length is not known yet, the request is open. -/
theorem requestOpen_of_lenField_none {rx : List Byte} (h : lenField rx = none) : RequestOpen rx :=
  fun _ hlen => nomatch h.symm.trans hlen

theorem requestOpen_cons {cmd hi lo : Byte} {ins : List Byte} :
    RequestOpen (cmd :: hi :: lo :: ins) ↔ ins.length < (half hi lo).toNat := by
  simp [RequestOpen, lenField]
  omega

theorem requestComplete_eq_false_of_open {rx : List Byte} (h : RequestOpen rx) : requestComplete rx = false := by
  unfold requestComplete
  split
  · next len hlen => exact beq_false_of_ne (h len hlen).ne
  · rfl

/-- A byte that does not complete an open request leaves it open: a request never grows past its length. -/
theorem requestOpen_append_byte {rx : List Byte} {b : Byte} (hopen : RequestOpen rx)
    (hc : requestComplete (rx ++ [b]) = false) : RequestOpen (rx ++ [b]) := by
  have hne : ¬ WholeRequest (rx ++ [b]) := by simp [hc]
  match rx with
  | [] | [_] => exact requestOpen_of_lenField_none rfl
  | [_, _] => exact requestOpen_cons.mpr (Nat.pos_of_ne_zero fun hlen => hne (requestComplete_cons.mpr hlen.symm))
  | _ :: _ :: _ :: ins =>
    have hle : (ins ++ [b]).length ≤ _ := List.length_append.trans_le (requestOpen_cons.mp hopen)
    exact requestOpen_cons.mpr (lt_of_le_of_ne hle fun hlen => hne (requestComplete_cons.mpr hlen))

theorem decodeCmd_ne_truncated (cmd : Byte) (ins rest : List Byte) :
    decodeCmd cmd ins rest ≠ .rejected .truncated := by
  rcases decodeCmd_cases cmd ins rest with ⟨i, h⟩ | ⟨v, h⟩ | ⟨v, h⟩ <;> simp [h]

theorem decode_of_open {bytes : List Byte} (h : RequestOpen bytes) : decode bytes = .rejected .truncated := by
  match bytes with
  | [] | [_] | [_, _] => rfl
  | cmd :: hi :: lo :: ins => simp [decode, requestOpen_cons.mp h]

/-- Bytes that are no longer open decode by their `CMD` byte, whatever follows the request. -/
theorem decode_of_not_open {bytes : List Byte} (h : ¬ RequestOpen bytes) :
    ∃ cmd hi lo ins, bytes = cmd :: hi :: lo :: ins ∧ (half hi lo).toNat ≤ ins.length ∧
      decode bytes = decodeCmd cmd (ins.take (half hi lo).toNat) (ins.drop (half hi lo).toNat) := by
  match bytes with
  | [] | [_] | [_, _] => exact absurd (requestOpen_of_lenField_none rfl) h
  | cmd :: hi :: lo :: ins =>
    have hle : ¬ ins.length < (half hi lo).toNat := fun hlt => h (requestOpen_cons.mpr hlt)
    exact ⟨cmd, hi, lo, ins, rfl, Nat.not_lt.mp hle, by simp [decode, hle]⟩

/-- Bytes that decode with nothing left over are one whole request. -/
theorem wholeRequest_of_decode_ok {bytes : List Byte} {i : Instr} (h : decode bytes = .ok i []) :
    WholeRequest bytes := by
  have hopen : ¬ RequestOpen bytes := fun ho => nomatch h.symm.trans (decode_of_open ho)
  obtain ⟨cmd, hi, lo, ins, rfl, hle, hdecode⟩ := decode_of_not_open hopen
  rw [h] at hdecode
  have hdrop : ins.drop (half hi lo).toNat = [] := by
    rcases decodeCmd_cases cmd (ins.take (half hi lo).toNat) (ins.drop (half hi lo).toNat)
      with ⟨j, hj⟩ | ⟨v, hv⟩ | ⟨v, hv⟩
    · exact (Decoded.ok.inj (hdecode.trans hj)).2.symm
    · exact nomatch hdecode.trans hv
    · exact nomatch hdecode.trans hv
  exact requestComplete_cons.mpr (Nat.le_antisymm (List.drop_eq_nil_iff.mp hdrop) hle)

/-! ### One port step each -/

section
variable {s : State} {b : Byte} {bs : List Byte} {evs : List PortEvent}

theorem step_write_of_unread (hp : s.pending = .write b :: evs) (ht : s.tx ≠ []) :
    step s = .refused .writeWhileResponseUnread := by
  obtain ⟨c, cs, htx⟩ := List.exists_cons_of_ne_nil ht
  simp [step_of_pending_cons hp, portEvent, hostWrite, htx]

theorem step_write_of_open (hp : s.pending = .write b :: evs) (ht : s.tx = []) (ho : RequestOpen (s.rx ++ [b])) :
    step s = .next { s with rx := s.rx ++ [b], pending := evs } := by
  simp [step_of_pending_cons hp, portEvent, hostWrite, ht, requestComplete_eq_false_of_open ho, State.afterEvent,
    State.pushRx]

theorem step_write_of_whole (hp : s.pending = .write b :: evs) (ht : s.tx = []) (hw : WholeRequest (s.rx ++ [b])) :
    step s = serveRequest (s.rx ++ [b]) { s with rx := s.rx ++ [b], pending := evs } := by
  simp [step_of_pending_cons hp, portEvent, hostWrite, ht, hw, State.afterEvent, State.pushRx]

theorem step_read_of_empty (hp : s.pending = .read :: evs) (ht : s.tx = []) :
    step s = .fault .readWithNoResponse := by
  simp [step_of_pending_cons hp, portEvent, hostRead, ht]

theorem step_read_of_cons (hp : s.pending = .read :: evs) (ht : s.tx = b :: bs) :
    step s = .next { s with tx := bs, received := s.received ++ [b], pending := evs } := by
  simp [step_of_pending_cons hp, portEvent, hostRead, ht, State.afterEvent, State.popTx]

theorem step_reset (hp : s.pending = .reset :: evs) :
    step s = .next { s with rx := [], tx := [], pending := evs } := by
  simp [step_of_pending_cons hp, portEvent, portReset, State.afterEvent, State.clearPort]

/-- The write that makes the received bytes decode to `i`, nothing left over, runs `i`. -/
theorem step_write_of_decode_ok {i : Instr} (hp : s.pending = .write b :: evs) (ht : s.tx = [])
    (hd : decode (s.rx ++ [b]) = .ok i []) : step s = exec i { s with rx := s.rx ++ [b], pending := evs } := by
  rw [step_write_of_whole hp ht (wholeRequest_of_decode_ok hd), serveRequest_of_decode_ok hd]

end

/-! ### The port's invariant -/

/-- With both queues empty the invariant holds, whatever the host's side is. -/
theorem portInv_of_idle {s : State} (h : s.Idle) : PortInv s where
  rxOpen := h.1 ▸ requestOpen_nil
  oneInFlight := fun _ => h.1
  txUnread := .inl h.2

/-- A whole request's response, put in `tx` with nothing of it read yet, is the unread rest of itself. -/
theorem portInv_putResponse {request : List Byte} {r : Response} (s : State) (hw : WholeRequest request)
    (hr : responseTo request = r.bytes) (hlegal : r.Legal) : PortInv (s.putResponse r) where
  rxOpen := requestOpen_nil
  oneInFlight := fun _ => rfl
  txUnread := .inr ⟨request, [], r, hw, hr, hlegal, List.nil_suffix, rfl⟩

/-- The byte a host read takes moves from the unread rest to the end of the received bytes. -/
theorem unreadRest_popTx {s : State} {b : Byte} {bs : List Byte} (ht : s.tx = b :: bs) (h : UnreadRest s) :
    UnreadRest (s.popTx b bs) := by
  obtain ⟨request, read, r, hw, hr, hlegal, hsuffix, hall⟩ := h
  obtain ⟨before, hbefore⟩ := hsuffix
  refine ⟨request, read ++ [b], r, hw, hr, hlegal, ⟨before, ?_⟩, ?_⟩
  · rw [popTx_received, ← hbefore, List.append_assoc]
  · rw [popTx_tx, ← hall, ht, List.append_assoc, List.singleton_append]

theorem portInv_pushRx {s : State} {b : Byte} (ht : s.tx = []) (hinv : PortInv s)
    (hc : requestComplete (s.rx ++ [b]) = false) : PortInv (s.pushRx b) where
  rxOpen := requestOpen_append_byte hinv.rxOpen hc
  oneInFlight := fun hne => absurd ht hne
  txUnread := .inl ht

theorem portInv_popTx {s : State} {b : Byte} {bs : List Byte} (ht : s.tx = b :: bs) (hinv : PortInv s) :
    PortInv (s.popTx b bs) where
  rxOpen := hinv.rxOpen
  oneInFlight := fun _ => hinv.oneInFlight (by simp [ht])
  txUnread := .inr (unreadRest_popTx ht (hinv.txUnread.resolve_left (by simp [ht])))

/-- The invariant does not speak of the events still to come. -/
theorem portInv_afterEvent {s : State} (evs : List PortEvent) (hinv : PortInv s) : PortInv (s.afterEvent evs) where
  rxOpen := hinv.rxOpen
  oneInFlight := hinv.oneInFlight
  txUnread := hinv.txUnread

/-! ### The statements -/

/-- Settles O41, by the five things a step that answers a next state can do. -/
theorem everyStepKeepsPortInv : Obligations.EveryStepKeepsPortInv := by
  intro s t hinv hstep
  rcases step_cases hstep with ⟨-, rfl⟩ | ⟨b, evs, -, ht, hc, rfl⟩ | ⟨b, evs, -, -, hw, hserve⟩ |
    ⟨b, bs, evs, -, ht, rfl⟩ | ⟨evs, -, rfl⟩
  · exact hinv
  · exact portInv_pushRx ht (portInv_afterEvent evs hinv) hc
  · obtain ⟨r, hlegal, hr⟩ := serveRequest_answers_legal hw
    rw [hr] at hserve
    injection hserve with hserve
    subst hserve
    exact portInv_putResponse _ hw (responseTo_of_answers hr) hlegal.legal
  · exact portInv_popTx ht (portInv_afterEvent evs hinv)
  · exact portInv_of_idle ⟨rfl, rfl⟩

/-- Settles O40: reset leaves the unit idle. -/
theorem portInvHoldsAfterReset : Obligations.PortInvHoldsAfterReset :=
  portInv_of_idle ⟨rfl, rfl⟩

/-- Settles O2: `RequestOpen` and the exact length are the two outcomes of R28's test, and a whole request has one
response in every state. -/
theorem hostWriteStoresOrServes : Obligations.HostWriteStoresOrServes := by
  intro s b evs hp ht
  refine ⟨step_write_of_open hp ht, fun cmd hi lo ins hrx hlen => ?_⟩
  have hw : WholeRequest (cmd :: hi :: lo :: ins) := requestComplete_cons.mpr (hlen.trans (half_toNat hi lo).symm)
  obtain ⟨r, hr⟩ := serveRequest_of_complete hw
  refine ⟨r, hr, response_bytes r, ?_⟩
  rw [step_write_of_whole hp ht (hrx ▸ hw), hrx, hr]
  rfl

/-- Settles O38: an open request is truncated, and any other is judged by its `CMD` byte. -/
theorem decoderWaitsExactlyWhileOpen : Obligations.DecoderWaitsExactlyWhileOpen := by
  refine fun bytes => ⟨fun htrunc => ?_, decode_of_open⟩
  by_contra hopen
  obtain ⟨cmd, hi, lo, ins, -, -, hdecode⟩ := decode_of_not_open hopen
  exact decodeCmd_ne_truncated _ _ _ (hdecode.symm.trans htrunc)

/-- Settles O1: `step_reset` on any state, and the two queues of the state after reset. -/
theorem resetEmptiesThePort : Obligations.ResetEmptiesThePort :=
  ⟨reset_rx, reset_tx, fun _ _ => step_reset⟩

/-- Settles O3: bytes that decode with nothing left over are one whole request, which the write has served. -/
theorem stepRunsTheDecodedInstruction : Obligations.StepRunsTheDecodedInstruction :=
  fun _ _ _ _ => step_write_of_decode_ok

/-- Settles O4: with `LEN` = 0 the three header bytes are already a whole request. -/
theorem emptyRequestCompletesAtItsThirdByte : Obligations.EmptyRequestCompletesAtItsThirdByte := by
  intro s cmd evs hrx ht hp
  have hw : WholeRequest (s.rx ++ [0x00#8]) := by
    rw [hrx]
    exact requestComplete_cons.mpr rfl
  obtain ⟨r, hr⟩ := serveRequest_of_complete hw
  refine ⟨_, (step_write_of_whole hp ht hw).trans (hr _), rfl, ?_, rfl⟩
  rw [putResponse_tx, length_responseBytes]
  exact Nat.le_add_right 3 _

/-- Settles O5: the two cases of `tx`. -/
theorem hostReadTakesTheFrontByte : Obligations.HostReadTakesTheFrontByte :=
  fun _ _ hp => ⟨step_read_of_empty hp, fun _ _ => step_read_of_cons hp⟩

/-- Settles O6: R30's two steps with no move, the open request, and the unit that waits. -/
theorem stepsWithNoMove : Obligations.StepsWithNoMove :=
  ⟨fun _ _ _ => step_write_of_unread, fun _ _ => step_read_of_empty,
    fun _ _ _ hp ht ho => ⟨_, step_write_of_open hp ht ho, ht⟩, fun _ => step_of_pending_nil⟩

/-- A table word is read as an instruction only when its request decodes with nothing left over. -/
theorem decode_tableRequest {nbits w : Nat} {i : Instr} (h : decodeTableWord nbits w = some i) :
    decode (tableRequest nbits w) = .ok i [] := by
  unfold decodeTableWord at h
  split at h
  · next j hok => rw [hok, Option.some.inj h]
  · exact nomatch h
  · exact nomatch h

/-- A loaded request that decodes to `i`, nothing left over, is run by the very next step. -/
theorem step_loadRequest {request : List Byte} {i : Instr} (hd : decode request = .ok i []) (s : State) :
    step (loadRequest request s) = exec i { s with rx := request, tx := [] } := by
  obtain ⟨front, b, rfl⟩ : ∃ front b, request = front ++ [b] := by
    rcases List.eq_nil_or_concat' request with rfl | h
    · exact nomatch hd
    · exact h
  have hload : loadRequest (front ++ [b]) s = { s with rx := front, tx := [], pending := .write b :: s.pending } := by
    simp [loadRequest]
  rw [hload]
  exact step_write_of_decode_ok rfl rfl hd

/-- Settles O8: the loaded request is one write away from decoding to the instruction. -/
theorem fetchedWordRunsNext : Obligations.FetchedWordRunsNext :=
  fun s _ _ _ h => step_loadRequest (decode_tableRequest h) s

end Sys2Proof.Machine
end

