-- ==== Sys2Proof/Proofs/Sessions.lean ====
section
/-! SUPPORT. Runs of many port steps: the bytes of a request, the bytes of its response, a transaction of the two, and
a session of transactions (R39, R42, R111, R112). -/

namespace Sys2Proof.Machine

/-! ### Runs -/

/-- `n` steps from `s` all answer, and the last one answers `t`. -/
def RunsTo (n : Nat) (s t : State) : Prop := Host.Core.run core n s = .next t

section
variable {s t u : State} {m n : Nat}

theorem runsTo_zero (s : State) : RunsTo 0 s s := rfl

theorem runsTo_zero_iff : RunsTo 0 s t ↔ s = t := ⟨Host.Outcome.next.inj, congrArg Host.Outcome.next⟩

/-- A run is its first step and the run from there. -/
theorem runsTo_succ_iff : RunsTo (n + 1) s t ↔ ∃ u, step s = .next u ∧ RunsTo n u t := by
  have hcore : core.step s = step s := rfl
  cases hstep : step s <;> simp [RunsTo, Host.Core.run, hcore, hstep]

theorem runsTo_succ (hstep : step s = .next u) (h : RunsTo n u t) : RunsTo (n + 1) s t :=
  runsTo_succ_iff.mpr ⟨u, hstep, h⟩

/-- Runs compose. -/
theorem RunsTo.trans (h : RunsTo m s t) (h' : RunsTo n t u) : RunsTo (m + n) s u := by
  induction m generalizing s with
  | zero => rwa [Nat.zero_add, runsTo_zero_iff.mp h]
  | succ m ih =>
    obtain ⟨v, hstep, hrest⟩ := runsTo_succ_iff.mp h
    rw [Nat.add_right_comm]
    exact runsTo_succ hstep (ih hrest)

end

/-! ### Prefixes of a request -/

/-- The length, once known, stays known as more bytes come. -/
theorem lenField_append {rx : List Byte} {len : Nat} (h : lenField rx = some len) (bs : List Byte) :
    lenField (rx ++ bs) = some len := by
  match rx, h with
  | _ :: _ :: _ :: _, h => exact h

theorem requestOpen_of_append {rx bs : List Byte} (h : RequestOpen (rx ++ bs)) : RequestOpen rx := by
  intro len hlen
  have hlt := h len (lenField_append hlen bs)
  rw [List.length_append] at hlt
  omega

/-- Before its last byte a whole request is open (R28). -/
theorem requestOpen_of_whole_append_byte {rx : List Byte} {b : Byte} (h : WholeRequest (rx ++ [b])) :
    RequestOpen rx := by
  intro len hlen
  have hlength : (rx ++ [b]).length = 3 + len := by
    simpa only [WholeRequest, requestComplete, lenField_append hlen, beq_iff_eq] using h
  rw [List.length_append, List.length_singleton] at hlength
  omega

/-! ### Requests and responses -/

/-- A response has at least its three header bytes (R51). -/
theorem responseTo_ne_nil {request : List Byte} (h : WholeRequest request) : responseTo request ≠ [] := by
  obtain ⟨r, hr⟩ := serveRequest_of_complete h
  rw [responseTo_of_answers hr, response_bytes]
  exact List.cons_ne_nil _ _

/-- The write that completes a request puts its response in `tx` (R28). -/
theorem step_write_answers {s : State} {b : Byte} {evs : List PortEvent} (hp : s.pending = .write b :: evs)
    (ht : s.tx = []) (hw : WholeRequest (s.rx ++ [b])) :
    step s = .next { s with rx := [], tx := responseTo (s.rx ++ [b]), pending := evs } := by
  rw [step_write_of_whole hp ht hw, serveRequest_of_whole hw]

/-- Bytes that leave the request open are all taken in, and nothing else happens (R28, R112). -/
theorem runsTo_writes_of_open {s : State} {bs : List Byte} {evs : List PortEvent}
    (hp : s.pending = bs.map .write ++ evs) (ht : s.tx = []) (ho : RequestOpen (s.rx ++ bs)) :
    RunsTo bs.length s { s with rx := s.rx ++ bs, pending := evs } := by
  induction bs generalizing s with
  | nil =>
    rw [List.append_nil, ← show s.pending = evs from hp]
    exact runsTo_zero s
  | cons b bs ih =>
    rw [List.append_cons] at ho ⊢
    exact runsTo_succ (step_write_of_open hp ht (requestOpen_of_append ho)) (ih rfl ht ho)

/-- A whole request, written into an idle unit, leaves its response in `tx`. -/
theorem runsTo_writes_of_whole {s : State} {request : List Byte} {evs : List PortEvent} (hidle : s.Idle)
    (hw : WholeRequest request) (hp : s.pending = request.map .write ++ evs) :
    RunsTo request.length s { s with tx := responseTo request, pending := evs } := by
  obtain ⟨rx, tx, pending, received⟩ := s
  obtain ⟨rfl, rfl⟩ : rx = [] ∧ tx = [] := hidle
  obtain rfl | ⟨front, b, rfl⟩ := List.eq_nil_or_concat' request
  · exact nomatch hw
  · rw [List.map_append, List.append_assoc] at hp
    rw [List.length_append]
    exact (runsTo_writes_of_open hp rfl (requestOpen_of_whole_append_byte hw)).trans
      (runsTo_succ (step_write_answers rfl rfl hw) (runsTo_zero _))

/-- As many reads as there are bytes in `tx` give the host all of them, in order (R29). -/
theorem runsTo_reads {s : State} {bs : List Byte} {evs : List PortEvent} (ht : s.tx = bs)
    (hp : s.pending = List.replicate bs.length .read ++ evs) :
    RunsTo bs.length s { s with tx := [], received := s.received ++ bs, pending := evs } := by
  induction bs generalizing s with
  | nil =>
    rw [List.length_nil, List.append_nil, ← show s.pending = evs from hp, ← ht]
    exact runsTo_zero s
  | cons b bs ih =>
    rw [List.append_cons]
    exact runsTo_succ (step_read_of_cons hp ht) (ih rfl rfl)

/-- A transaction gives the host the whole response and leaves the unit idle (R111, R112). -/
theorem runsTo_transaction {s : State} {request : List Byte} {evs : List PortEvent} (hidle : s.Idle)
    (hw : WholeRequest request) (hp : s.pending = transaction request ++ evs) :
    RunsTo (transaction request).length s
      { s with pending := evs, received := s.received ++ responseTo request } := by
  obtain ⟨rx, tx, pending, received⟩ := s
  obtain ⟨rfl, rfl⟩ : rx = [] ∧ tx = [] := hidle
  rw [transaction, List.append_assoc] at hp
  rw [transaction, List.length_append, List.length_map, List.length_replicate]
  exact (runsTo_writes_of_whole ⟨rfl, rfl⟩ hw hp).trans (runsTo_reads rfl rfl)

/-- A session gives the host the responses in order: each transaction ends idle, where the next one begins (R42). -/
theorem runsTo_session {requests : List (List Byte)} {s : State} {evs : List PortEvent} (hidle : s.Idle)
    (hwhole : ∀ request ∈ requests, WholeRequest request) (hp : s.pending = session requests ++ evs) :
    RunsTo (session requests).length s
      { s with pending := evs, received := s.received ++ requests.flatMap responseTo } := by
  induction requests generalizing s with
  | nil =>
    rw [List.flatMap_nil, List.append_nil, ← show s.pending = evs from hp]
    exact runsTo_zero s
  | cons request requests ih =>
    obtain ⟨hw, hrest⟩ := List.forall_mem_cons.mp hwhole
    rw [session, List.flatMap_cons, List.append_assoc] at hp
    rw [session, List.flatMap_cons, List.flatMap_cons, List.length_append, ← List.append_assoc]
    exact (runsTo_transaction hidle hw hp).trans (ih hidle hrest rfl)

/-! ### The statements -/

/-- Settles O35: the response is `responseTo` of the request's bytes, whatever the state. -/
theorem sameRequestSameResponse : Obligations.SameRequestSameResponse := by
  intro request s u b c evs evs' hw hps hpu hts htu hs hu
  refine ⟨responseTo request, responseTo_ne_nil hw, ?_, ?_⟩
  · rw [step_write_answers hps hts (hs ▸ hw), hs]
  · rw [step_write_answers hpu htu (hu ▸ hw), hu]

/-- Settles O43, by `runsTo_session`. -/
theorem sessionsAreAnsweredInOrder : Obligations.SessionsAreAnsweredInOrder :=
  fun _ _ _ => runsTo_session

end Sys2Proof.Machine
end

