-- ==== Sys2Proof/Proofs/Encoding.lean ====
section
/-! SUPPORT. What decodes to what: the fields of the `CMD` byte, the two bytes of `LEN`, and the decoder as the exact
inverse of the encoder (R47, R48, R57, R58, R60). -/

namespace Sys2Proof.Machine

/-! ### The fields of a request -/

@[simp] theorem rsvField_append (rsv op : BitVec 4) : rsvField (rsv ++ op) = rsv :=
  BitVec.extractLsb'_append_eq_left

@[simp] theorem opField_append (rsv op : BitVec 4) : opField (rsv ++ op) = op :=
  BitVec.extractLsb'_append_eq_right

/-- A `CMD` byte is its two fields (R48). -/
theorem rsvField_append_opField (cmd : Byte) : rsvField cmd ++ opField cmd = cmd :=
  BitVec.extractLsb'_append_extractLsb'

/-- A half-word of two bytes is sent as those two bytes (R34). -/
@[simp] theorem halfBytes_half (hi lo : Byte) : halfBytes (half hi lo) = [hi, lo] := by
  rw [halfBytes, half, BitVec.extractLsb'_append_eq_left, BitVec.extractLsb'_append_eq_right]

/-- The `CMD` bytes 0x01 to 0x07 by their fields (R48). -/
theorem legal_cmd_iff_fields (cmd : Byte) :
    0x01#8 ≤ cmd ∧ cmd ≤ 0x07#8 ↔ rsvField cmd = 0x0#4 ∧ opField cmd ≠ 0x0#4 ∧ opField cmd < 0x8#4 := by
  revert cmd
  decide

/-! ### The decoder -/

/-- An operation's code and its operands are all there is to it (R57). -/
theorem decodeOp_eq_some_iff {op : BitVec 4} {ins : List Byte} {i : Instr} :
    decodeOp op ins = some i ↔ op = i.opCode ∧ ins = i.operands := by
  constructor
  · intro h
    unfold decodeOp at h
    split at h
    case h_8 => exact nomatch h
    all_goals
      next hop =>
        obtain rfl := Option.some.inj h
        exact ⟨BitVec.eq_of_toNat_eq hop, rfl⟩
  · rintro ⟨rfl, rfl⟩
    cases i <;> rfl

/-- A `CMD` byte gives an operation exactly if it is that operation's own (R48, R54, R58). -/
theorem decodeCmd_eq_ok_iff {cmd : Byte} {ins rest rest' : List Byte} {i : Instr} :
    decodeCmd cmd ins rest = .ok i rest' ↔ cmd = i.cmdByte ∧ ins = i.operands ∧ rest = rest' := by
  constructor
  · intro h
    unfold decodeCmd at h
    split at h
    · exact nomatch h
    · next hrsv =>
      split at h
      · next j hop =>
        obtain ⟨rfl, rfl⟩ := Decoded.ok.inj h
        obtain ⟨hcode, hins⟩ := decodeOp_eq_some_iff.mp hop
        refine ⟨?_, hins, rfl⟩
        rw [← rsvField_append_opField cmd, not_not.mp hrsv, hcode, Instr.cmdByte]
      · exact nomatch h
  · rintro ⟨rfl, rfl, rfl⟩
    have hop : decodeOp i.opCode i.operands = some i := decodeOp_eq_some_iff.mpr ⟨rfl, rfl⟩
    simp [decodeCmd, Instr.cmdByte, hop]

/-- The request bytes of an instruction with its `LEN` bytes written out (R47). -/
theorem encode_append (i : Instr) (rest : List Byte) :
    encode i ++ rest = i.cmdByte :: (halfBytes (BitVec.ofNat 16 i.operands.length) ++ (i.operands ++ rest)) := by
  simp [encode]

/-- The encoding is the one spelling of an instruction (R47, R60). -/
theorem decode_eq_ok_iff {bytes rest : List Byte} {i : Instr} :
    decode bytes = .ok i rest ↔ i.WellFormed ∧ bytes = encode i ++ rest := by
  constructor
  · intro h
    have hopen : ¬ RequestOpen bytes := fun ho => nomatch h.symm.trans (decode_of_open ho)
    obtain ⟨cmd, hi, lo, ins, rfl, hle, hdecode⟩ := decode_of_not_open hopen
    obtain ⟨hcmd, htake, hdrop⟩ := decodeCmd_eq_ok_iff.mp (hdecode.symm.trans h)
    have hlen : i.operands.length = (half hi lo).toNat := by rw [← htake, List.length_take_of_le hle]
    refine ⟨?_, ?_⟩
    · exact hlen.trans_le (Nat.le_of_lt_succ (half_toNat_lt hi lo))
    · rw [encode_append, hlen, BitVec.ofNat_toNat, BitVec.setWidth_eq, halfBytes_half, ← htake, ← hdrop,
        List.take_append_drop, hcmd]
      rfl
  · rintro ⟨hwf, rfl⟩
    have hlen : (BitVec.ofNat 16 i.operands.length).toNat = i.operands.length :=
      Nat.mod_eq_of_lt (Nat.lt_succ_of_le hwf)
    rw [encode_append]
    simp [halfBytes, decode, half_halfBytes, hlen, decodeCmd_eq_ok_iff]

/-! ### Illegal commands -/

/-- Exactly the `CMD` bytes 0x01 to 0x07 are an operation's (R57). -/
theorem exists_decodeCmd_eq_ok_iff (cmd : Byte) (ins rest : List Byte) :
    (∃ i, decodeCmd cmd ins rest = .ok i rest) ↔ 0x01#8 ≤ cmd ∧ cmd ≤ 0x07#8 := by
  constructor
  · rintro ⟨i, hok⟩
    obtain ⟨rfl, -, -⟩ := decodeCmd_eq_ok_iff.mp hok
    cases i <;> simp [Instr.cmdByte, Instr.opCode]
  · intro hlegal
    have hcases : cmd = 0x01#8 ∨ cmd = 0x02#8 ∨ cmd = 0x03#8 ∨ cmd = 0x04#8 ∨ cmd = 0x05#8 ∨ cmd = 0x06#8 ∨
        cmd = 0x07#8 := by
      bv_omega
    rcases hcases with rfl | rfl | rfl | rfl | rfl | rfl | rfl
    exacts [⟨.crc8 ins, rfl⟩, ⟨.crcchk ins, rfl⟩, ⟨.encode ins, rfl⟩, ⟨.decpairs ins, rfl⟩, ⟨.f32rec ins, rfl⟩,
      ⟨.decmeas ins, rfl⟩, ⟨.decstat ins, rfl⟩]

/-- A whole request with any other `CMD` byte is served by `illegalRequest`, whatever its operands are (R58). -/
theorem serveRequest_of_illegal {cmd hi lo : Byte} {ins : List Byte} (hlen : ins.length = (half hi lo).toNat)
    (hcmd : ¬ (0x01#8 ≤ cmd ∧ cmd ≤ 0x07#8)) (s : State) :
    serveRequest (cmd :: hi :: lo :: ins) s = illegalRequest s := by
  have hdecode : decode (cmd :: hi :: lo :: ins) = decodeCmd cmd ins [] := decode_of_complete hlen
  rcases decodeCmd_cases cmd ins [] with hok | ⟨v, hrsv⟩ | ⟨v, hop⟩
  · exact absurd ((exists_decodeCmd_eq_ok_iff cmd ins []).mp hok) hcmd
  · simp only [serveRequest, hdecode, hrsv]
  · simp only [serveRequest, hdecode, hop]

/-! ### The statements -/

/-- Settles O36, by `decode_eq_ok_iff`. -/
theorem decodeOfEncodeIsTheInstruction : Obligations.DecodeOfEncodeIsTheInstruction :=
  fun _ _ hwf => decode_eq_ok_iff.mpr ⟨hwf, rfl⟩

/-- Settles O37, by `decode_eq_ok_iff`. -/
theorem encodeOfDecodeIsTheRequest : Obligations.EncodeOfDecodeIsTheRequest :=
  fun _ _ _ => decode_eq_ok_iff.mp

/-- Settles O7: a reserved field puts the `CMD` byte outside 0x01 to 0x07, where nothing decodes. -/
theorem illegalCommandsAnswerIllegalOperation : Obligations.IllegalCommandsAnswerIllegalOperation := by
  refine ⟨fun s b evs cmd hi lo ins hp ht hrx hlen hfields => ?_, exists_decodeCmd_eq_ok_iff, by decide⟩
  have hhalf : ins.length = (half hi lo).toNat := hlen.trans (half_toNat hi lo).symm
  have hcmd : ¬ (0x01#8 ≤ cmd ∧ cmd ≤ 0x07#8) := by
    rw [legal_cmd_iff_fields, ← BitVec.not_le]
    tauto
  rw [step_write_of_whole hp ht (hrx ▸ requestComplete_cons.mpr hhalf), hrx, serveRequest_of_illegal hhalf hcmd,
    illegalRequest_eq, State.putResponse, raise_bytes]
  rfl

/-- Settles O39: each clause is one run of the decoder. -/
theorem wordsOfTheSpecDecode : Obligations.WordsOfTheSpecDecode := by
  refine ⟨?_, ?_, ?_, ?_, ?_, ?_, ?_⟩ <;> decide

end Sys2Proof.Machine
end

