-- ==== Sys2Proof/Proofs/ResponseLengths.lean ====
section
/-! SUPPORT. What a response says of itself (R51 to R53, R56), every operation as one function behind the capacity
check (R54, R55), and the lengths that go with `OK` (R57). -/

namespace Sys2Proof.Machine

/-! ### Response bytes -/

/-- The two `RLEN` bytes read back as the payload's length when it fits them (R53, R56). -/
theorem lenField_responseBytes {r : Response} (h : r.payload.length ≤ 65535) :
    lenField r.bytes = some r.payload.length := by
  have hlen : (BitVec.ofNat 16 r.payload.length).toNat = r.payload.length := Nat.mod_eq_of_lt (Nat.lt_succ_of_le h)
  simp [Response.bytes, halfBytes, lenField, half_halfBytes, hlen]

theorem stsByte_le (e : Status) : stsByte e ≤ 0x05#8 := by
  cases e <;> decide

theorem stsByte_injective {e e' : Status} (h : stsByte e = stsByte e') : e = e' := by
  revert h
  cases e <;> cases e' <;> decide

/-- A response can be told from its bytes. -/
theorem response_bytes_injective {r r' : Response} (h : r.bytes = r'.bytes) : r = r' := by
  obtain ⟨sts, payload⟩ := r
  obtain ⟨sts', payload'⟩ := r'
  simp only [response_bytes, List.cons_append, List.nil_append, List.cons.injEq] at h
  obtain ⟨hsts, -, -, hpayload⟩ := h
  rw [stsByte_injective hsts, hpayload]

/-- What R51 to R53 and R56 say of the bytes of a legal response. -/
theorem Response.LegalAndShort.bytes_spec {r : Response} (h : r.LegalAndShort) :
    r.Legal ∧ r.payload.length ≤ 65534 ∧ (∃ sts : Byte, r.bytes.head? = some sts ∧ sts ≤ 0x05#8) ∧
      lenField r.bytes = some r.payload.length ∧ r.bytes.length = 3 + r.payload.length :=
  ⟨h.legal, h.short, ⟨stsByte r.sts, rfl, stsByte_le r.sts⟩, lenField_responseBytes h.legal.1,
    length_responseBytes r⟩

/-! ### Every operation as one function -/

/-- The function from operands to a response that `exec` puts behind the capacity check (the case of R54). -/
def operation : Instr → List Byte → Response
  | .crc8 _ => opCrc8
  | .crcchk _ => opCrcchk
  | .encode _ => opEncode
  | .decpairs _ => opDecpairs
  | .f32rec _ => opF32rec
  | .decmeas _ => opDecmeas
  | .decstat _ => opDecstat

/-- Every operation is served alike (R54). -/
theorem exec_eq (i : Instr) (s : State) :
    exec i s = .next (s.putResponse (withinCap Config.inCap (operation i) i.operands)) := by
  cases i <;> rfl

/-- What the capacity check lets succeed, the operation itself answers. -/
theorem eq_okay_of_withinCap {cap : Nat} {op : List Byte → Response} {ins out : List Byte}
    (h : withinCap cap op ins = okay out) : op ins = okay out := by
  unfold withinCap at h
  split at h
  · exact nomatch h
  · exact h

/-- An operation that answers `OK` succeeds. -/
theorem operation_eq_okay_of_exec {i : Instr} {out : List Byte} {s : State}
    (h : exec i s = .next { s with rx := [], tx := (okay out).bytes }) : operation i i.operands = okay out := by
  rw [exec_eq] at h
  exact eq_okay_of_withinCap (response_bytes_injective (congrArg State.tx (Host.Outcome.next.inj h)))

/-! ### The lengths of a success -/

section
variable {ins out : List Byte}

theorem lengths_of_opCrc8_eq_okay (h : opCrc8 ins = okay out) : ins.length = 2 ∧ out.length = 1 := by
  unfold opCrc8 at h
  split at h
  · obtain rfl := (Response.mk.inj h).2
    exact ⟨rfl, rfl⟩
  · exact nomatch h

theorem lengths_of_opCrcchk_eq_okay (h : opCrcchk ins = okay out) : ins.length = 3 ∧ out.length = 1 := by
  unfold opCrcchk at h
  split at h
  · obtain rfl := (Response.mk.inj h).2
    exact ⟨rfl, rfl⟩
  · exact nomatch h

theorem lengths_of_opEncode_eq_okay (h : opEncode ins = okay out) :
    2 ≤ ins.length ∧ (ins.length - 2) % 2 = 0 ∧ out.length = 2 + 3 * ((ins.length - 2) / 2) := by
  unfold opEncode at h
  split at h
  · split at h
    · exact nomatch h
    · obtain rfl := (Response.mk.inj h).2
      simp only [List.length_cons, length_encodePairs]
      omega
  · exact nomatch h

theorem lengths_of_opDecpairs_eq_okay (h : opDecpairs ins = okay out) :
    ins.length % 3 = 0 ∧ out.length = 2 * ins.length / 3 := by
  unfold opDecpairs at h
  split at h
  · exact nomatch h
  · next hgroups =>
    have hmod : ins.length % 3 = 0 := not_not.mp hgroups
    split at h
    · exact nomatch h
    · obtain rfl := (Response.mk.inj h).2
      rw [length_groupData]
      omega

theorem lengths_of_opF32rec_eq_okay (h : opF32rec ins = okay out) : ins.length = 6 ∧ out.length = 4 := by
  unfold opF32rec at h
  split at h
  · split at h
    · exact nomatch h
    · split at h
      · exact nomatch h
      · obtain rfl := (Response.mk.inj h).2
        exact ⟨rfl, rfl⟩
  · exact nomatch h

theorem lengths_of_opDecmeas_eq_okay (h : opDecmeas ins = okay out) : ins.length = 60 ∧ out.length = 40 := by
  unfold opDecmeas at h
  split at h
  · exact nomatch h
  · next hmeas =>
    have hlen : ins.length = 60 := not_not.mp hmeas
    split at h
    · exact nomatch h
    · obtain rfl := (Response.mk.inj h).2
      rw [length_channelPatterns, hlen]
      exact ⟨rfl, rfl⟩

theorem lengths_of_opDecstat_eq_okay (h : opDecstat ins = okay out) : ins.length = 3 ∧ out.length = 1 := by
  unfold opDecstat at h
  split at h
  · split at h
    · exact nomatch h
    · obtain rfl := (Response.mk.inj h).2
      exact ⟨rfl, rfl⟩
  · exact nomatch h

end

/-- A successful operation had operands of a length it takes, and its payload has the length of R57's last column. -/
theorem lengths_of_operation_eq_okay {i : Instr} {out : List Byte} (h : operation i i.operands = okay out) :
    i.LengthFits = true ∧ out.length = okLength i := by
  cases i with
  | crc8 ins => simpa [Instr.LengthFits, okLength] using lengths_of_opCrc8_eq_okay (ins := ins) h
  | crcchk ins => simpa [Instr.LengthFits, okLength] using lengths_of_opCrcchk_eq_okay (ins := ins) h
  | encode ins => simpa [Instr.LengthFits, okLength, and_assoc] using lengths_of_opEncode_eq_okay (ins := ins) h
  | decpairs ins => simpa [Instr.LengthFits, okLength] using lengths_of_opDecpairs_eq_okay (ins := ins) h
  | f32rec ins => simpa [Instr.LengthFits, okLength] using lengths_of_opF32rec_eq_okay (ins := ins) h
  | decmeas ins => simpa [Instr.LengthFits, okLength] using lengths_of_opDecmeas_eq_okay (ins := ins) h
  | decstat ins => simpa [Instr.LengthFits, okLength] using lengths_of_opDecstat_eq_okay (ins := ins) h

/-! ### The worked example (R62) -/

/-- The request of R62: `CRC8` of `BE EF`. -/
def workedRequest : List Byte := [0x01#8, 0x00#8, 0x02#8, 0xBE#8, 0xEF#8]

theorem decode_workedRequest : decode workedRequest = .ok (.crc8 [0xBE#8, 0xEF#8]) [] := by
  decide

/-- The two folds of R64 on the chunk of R62. -/
theorem crc8_worked_chunk : crc8 0xBE#8 0xEF#8 = 0x92#8 := by
  have hfirst : crcStep crcInit 0xBE#8 = 0x0C#8 := by decide
  have hsecond : crcStep 0x0C#8 0xEF#8 = 0x92#8 := by decide
  rw [crc8, hfirst, hsecond]

theorem responseTo_workedRequest : responseTo workedRequest = [0x00#8, 0x00#8, 0x01#8, 0x92#8] := by
  have hanswer (s : State) : serveRequest workedRequest s = .next (s.putResponse (okay [0x92#8])) := by
    rw [serveRequest_of_decode_ok decode_workedRequest, exec_crc8, withinCap_of_le_sixty (by decide), opCrc8,
      crc8_worked_chunk]
  exact (responseTo_of_answers hanswer).trans (okay_bytes _)

/-! ### The statements -/

/-- Settles O32: the bytes of the answer name the response, and each operation's success fixes both lengths. -/
theorem successHasTheTablesLengths : Obligations.SuccessHasTheTablesLengths :=
  fun _ _ _ h => lengths_of_operation_eq_okay (operation_eq_okay_of_exec h)

/-- Settles O33: every answer is legal and short, to an operation and to any whole request. -/
theorem everyResponseIsLegal : Obligations.EveryResponseIsLegal := by
  refine ⟨fun i => ?_, fun request hw => ?_⟩
  · obtain ⟨r, hlegal, hexec⟩ := exec_answers_legal i
    exact ⟨r, hexec, hlegal.bytes_spec⟩
  · obtain ⟨r, hlegal, hserve⟩ := serveRequest_answers_legal hw
    exact ⟨r, hserve, hlegal.bytes_spec⟩

/-- Settles O30: the capacity check stands before every operation. -/
theorem overCapacityAnswersOperandLength : Obligations.OverCapacityAnswersOperandLength := by
  intro i s hcap
  rw [exec_eq, withinCap_of_gt hcap, State.putResponse, raise_bytes]
  rfl

/-- Settles O42: five writes and four reads are the transaction of the request of R62. -/
theorem workedExampleOfTheEncoding : Obligations.WorkedExampleOfTheEncoding := by
  intro s evs hidle hp
  have hlength : (transaction workedRequest).length = 9 := by
    rw [transaction, responseTo_workedRequest]
    rfl
  have hrun := runsTo_transaction (request := workedRequest) hidle (wholeRequest_of_decode_ok decode_workedRequest) hp
  rwa [hlength, responseTo_workedRequest] at hrun

end Sys2Proof.Machine
end

