-- ==== Sys2Proof/Proofs/ChecksumOperations.lean ====
section
/-! SUPPORT. What the checksum's injectivity gives (R66, R69, R70), the two forms an answer of an operation takes, and
the operations `CRC8` and `CRCCHK` by their responses (R66 to R68). -/

namespace Sys2Proof.Machine

/-! ### The checksum function -/

/-- Truncation undoes the widening: the bit shifted out is the one the eight low bits lose (R11). -/
theorem setWidth_shiftLeft_setWidth (a : Byte) : (a.setWidth 9 <<< 1).setWidth 8 = shl8 a := by
  ext i hi
  simp [shl8]

/-- A byte folded into itself cancels, and zero stays zero in every round. -/
theorem crcStep_self (a : Byte) : crcStep a a = 0x00#8 := by
  have hzero : crcRounds 8 0x00#8 = 0x00#8 := by decide
  rw [crcStep, BitVec.xor_self, hzero]

theorem crcStep_eq_zero_iff {a b : Byte} : crcStep a b = 0x00#8 ↔ a = b := by
  constructor
  · intro h
    exact crcStep_injective_byte ((crcStep_self a).trans h.symm)
  · rintro rfl
    exact crcStep_self a

/-- Whatever the accumulator, every byte is the result of folding some byte in. -/
theorem crcStep_surjective_byte (a : Byte) : Function.Surjective (crcStep a) :=
  Finite.injective_iff_surjective.mp fun _ _ => crcStep_injective_byte

theorem crc8_injective_left {d0 d0' d1 : Byte} (h : crc8 d0 d1 = crc8 d0' d1) : d0 = d0' :=
  crcStep_injective_byte (crcStep_injective_acc h)

theorem crc8_injective_right {d0 d1 d1' : Byte} (h : crc8 d0 d1 = crc8 d0 d1') : d1 = d1' :=
  crcStep_injective_byte h

/-- A checksum is known once the accumulator after the first byte is (R64). -/
theorem crc8_of_folds {d0 d1 c : Byte} (acc : Byte) (hfirst : crcStep crcInit d0 = acc) (hsecond : crcStep acc d1 = c) :
    crc8 d0 d1 = c := by
  rw [crc8, hfirst, hsecond]

/-! ### The values of R66 and R67 -/

theorem crc8_zeros : crc8 0x00#8 0x00#8 = 0x81#8 := crc8_of_folds 0xAC#8 (by decide) (by decide)
theorem crc8_ones : crc8 0xFF#8 0xFF#8 = 0xAC#8 := crc8_of_folds 0x00#8 (crcStep_self _) (by decide)
theorem crc8_ones_zeros : crc8 0xFF#8 0x00#8 = 0x00#8 := crc8_of_folds 0x00#8 (crcStep_self _) (crcStep_self _)
theorem crc8_three_zeros : crc8 0x03#8 0x00#8 = 0xAC#8 := crc8_of_folds 0xFF#8 (by decide) (by decide)
theorem crc8_float_one : crc8 0x3F#8 0x80#8 = 0xD0#8 := crc8_of_folds 0x47#8 (by decide) (by decide)

/-! ### The two forms of an answer -/

/-- An operation that answers `OPERAND_LENGTH` does so with or without the capacity check (R55, R97). -/
theorem exec_of_operation_eq_operandLength {i : Instr} (h : operation i i.operands = raise .operandLength) (s : State) :
    exec i s = .next { s with rx := [], tx := [0x04#8, 0x00#8, 0x00#8] } := by
  have hcap : withinCap Config.inCap (operation i) i.operands = raise .operandLength := by
    rw [withinCap, h, ite_self]
  rw [exec_eq, hcap, State.putResponse, raise_bytes]
  rfl

/-- Within any capacity, an operation that succeeds answers its payload (R54). -/
theorem exec_of_operation_eq_okay {i : Instr} {out : List Byte} (hlen : i.operands.length ≤ 60)
    (h : operation i i.operands = okay out) (s : State) :
    exec i s = .next { s with rx := [], tx := (okay out).bytes } := by
  rw [exec_eq, withinCap_of_le_sixty hlen, h]
  rfl

/-! ### `CRC8` and `CRCCHK` -/

/-- A request opens with its `OP` code as a byte, the reserved field 0000 (R48). -/
theorem head?_encode (i : Instr) : (encode i).head? = some (i.opCode.setWidth 8) := by
  have hcmd : i.cmdByte = i.opCode.setWidth 8 := by simp [Instr.cmdByte, BitVec.setWidth_eq_append]
  rw [← hcmd]
  rfl

theorem okay_singleton_bytes (b : Byte) : (okay [b]).bytes = [0x00#8, 0x00#8, 0x01#8, b] := by
  simp [okay_bytes]

theorem opCrc8_of_length_ne {ins : List Byte} (h : ins.length ≠ 2) : opCrc8 ins = raise .operandLength := by
  unfold opCrc8
  split
  · exact absurd rfl h
  · rfl

theorem opCrcchk_of_length_ne {ins : List Byte} (h : ins.length ≠ 3) : opCrcchk ins = raise .operandLength := by
  unfold opCrcchk
  split
  · exact absurd rfl h
  · rfl

section
variable (d0 d1 c : Byte) (s : State)

theorem exec_crc8_pair :
    exec (.crc8 [d0, d1]) s = .next { s with rx := [], tx := [0x00#8, 0x00#8, 0x01#8, crc8 d0 d1] } := by
  rw [exec_of_operation_eq_okay (by simp [Instr.operands]) rfl, okay_singleton_bytes]

theorem exec_crcchk_group :
    exec (.crcchk [d0, d1, c]) s =
      .next { s with rx := [], tx := [0x00#8, 0x00#8, 0x01#8, boolByte (groupValid d0 d1 c)] } := by
  rw [exec_of_operation_eq_okay (by simp [Instr.operands]) rfl, okay_singleton_bytes]

end

section
variable {d0 d1 c : Byte}

theorem exec_crcchk_of_valid (h : crc8 d0 d1 = c) (s : State) :
    exec (.crcchk [d0, d1, c]) s = .next { s with rx := [], tx := [0x00#8, 0x00#8, 0x01#8, 0x01#8] } := by
  rw [exec_crcchk_group, groupValid, beq_iff_eq.mpr h]
  rfl

theorem exec_crcchk_of_invalid (h : crc8 d0 d1 ≠ c) (s : State) :
    exec (.crcchk [d0, d1, c]) s = .next { s with rx := [], tx := [0x00#8, 0x00#8, 0x01#8, 0x00#8] } := by
  rw [exec_crcchk_group, groupValid, beq_false_of_ne h]
  rfl

/-- An answer of 0x01 in any one state already shows the group valid. -/
theorem valid_of_exec_crcchk {s : State}
    (h : exec (.crcchk [d0, d1, c]) s = .next { s with rx := [], tx := [0x00#8, 0x00#8, 0x01#8, 0x01#8] }) :
    crc8 d0 d1 = c := by
  by_contra hinvalid
  rw [exec_crcchk_of_invalid hinvalid] at h
  simp at h

end

/-! ### The statements -/

/-- Settles O11: a fold reaches every byte value, and the rule's values are the two folds of R64 each. -/
theorem crc8AnswersTheChecksum : Obligations.Crc8AnswersTheChecksum :=
  ⟨exec_crc8_pair, fun ins s h => exec_of_operation_eq_operandLength (i := .crc8 ins) (opCrc8_of_length_ne h) s,
    fun c => ⟨0x00#8, crcStep_surjective_byte _ c⟩,
    crc8_zeros, crc8_ones, crc8_ones_zeros, crc8_three_zeros, crc8_worked_chunk,
    fun ins => head?_encode (.crc8 ins)⟩

/-- Settles O14: the checksum is injective in either byte, and equal to one value only. -/
theorem singleByteCorruptionIsDetected : Obligations.SingleByteCorruptionIsDetected := by
  refine ⟨?_, crc8_three_zeros, crc8_ones⟩
  rintro d0 d1 _ x rfl
  exact ⟨fun hx heq => hx (crc8_injective_left heq), fun hx heq => hx (crc8_injective_right heq),
    fun hx heq => hx heq.symm⟩

/-- Settles O15: a third fold gives zero exactly when its byte is the accumulator. -/
theorem residueIsZeroExactlyForValidGroups : Obligations.ResidueIsZeroExactlyForValidGroups :=
  fun _ _ _ => crcStep_eq_zero_iff

/-- Settles O10: truncation distributes over XOR, and takes 0x131 to 0x31. -/
theorem roundIsXorWith131BeforeTruncation : Obligations.RoundIsXorWith131BeforeTruncation := by
  intro acc
  rw [BitVec.setWidth_xor, setWidth_shiftLeft_setWidth, crcRound]
  by_cases hhigh : acc.getLsbD 7
  · rw [if_pos hhigh, if_pos hhigh]
    rfl
  · rw [if_neg hhigh, if_neg hhigh]
    exact BitVec.xor_zero.symm

/-- Settles O12: `CRCCHK` tells valid from invalid groups, and a chunk has one checksum. -/
theorem crcchkReportsGroupValidity : Obligations.CrcchkReportsGroupValidity := by
  refine ⟨fun _ _ _ s h => exec_crcchk_of_valid h s, fun _ _ _ s h => exec_crcchk_of_invalid h s,
    fun ins s h => exec_of_operation_eq_operandLength (i := .crcchk ins) (opCrcchk_of_length_ne h) s, fun d0 d1 => ?_,
    exec_crcchk_of_invalid (by simp [crc8_ones]), exec_crcchk_of_valid crc8_ones, exec_crcchk_of_valid crc8_float_one,
    fun ins => head?_encode (.crcchk ins)⟩
  exact ⟨crc8 d0 d1, exec_crcchk_of_valid rfl, fun c hall => (valid_of_exec_crcchk (hall State.reset)).symm⟩

/-- Settles O13: the payload byte of `CRC8` is the checksum, which makes the group valid. -/
theorem checkOfAComputedChecksumIsTrue : Obligations.CheckOfAComputedChecksumIsTrue := by
  intro d0 d1 c s t hexec hlast
  obtain rfl := Host.Outcome.next.inj ((exec_crc8_pair d0 d1 s).symm.trans hexec)
  have hchecksum : crc8 d0 d1 = c := Option.some.inj hlast
  exact exec_crcchk_of_valid hchecksum

end Sys2Proof.Machine
end

