-- ==== Sys2Proof/Proofs/Framing.lean ====
section
/-! SUPPORT. The answer of any operation within capacity (R54), and `ENCODE` and `DECPAIRS` by the offsets of their
pairs and groups (R71, R75 to R78). -/

namespace Sys2Proof.Machine

/-! ### Answers within capacity -/

/-- Within capacity the operation itself answers (R54). -/
theorem exec_of_operation_eq {i : Instr} {r : Response} (hcap : i.operands.length ≤ Config.inCap)
    (h : operation i i.operands = r) (s : State) : exec i s = .next { s with rx := [], tx := r.bytes } := by
  rw [exec_eq, withinCap_of_le hcap, h]
  rfl

/-- Only a request within capacity succeeds (R55). -/
theorem le_inCap_of_exec_eq_okay {i : Instr} {out : List Byte} {s : State}
    (h : exec i s = .next { s with rx := [], tx := (okay out).bytes }) : i.operands.length ≤ Config.inCap := by
  by_contra! hcap
  rw [exec_eq, withinCap_of_gt hcap] at h
  exact nomatch response_bytes_injective (congrArg State.tx (Host.Outcome.next.inj h))

/-! ### `ENCODE` -/

theorem opEncode_of_even {h l : Byte} {args : List Byte} (heven : args.length % 2 = 0) :
    opEncode (h :: l :: args) = okay (h :: l :: encodePairs args) := by
  simp [opEncode, heven]

theorem opEncode_of_odd {h l : Byte} {args : List Byte} (hodd : args.length % 2 = 1) :
    opEncode (h :: l :: args) = raise .invalidArgumentLength := by
  simp [opEncode, hodd]

theorem opEncode_of_short {ins : List Byte} (hshort : ins.length < 2) : opEncode ins = raise .operandLength := by
  match ins, hshort with
  | [], _ => rfl
  | [_], _ => rfl

/-- Operands with an opcode in front. -/
theorem exists_opcode_of_two_le {ins : List Byte} (h : 2 ≤ ins.length) : ∃ hi lo args, ins = hi :: lo :: args := by
  match ins, h with
  | hi :: lo :: args, _ => exact ⟨hi, lo, args, rfl⟩

/-- Pair `k` of the arguments is data bytes 0 and 1 of group `k` of the frame, and byte 2 is its checksum (R71). -/
theorem getElem?_encodePairs {args : List Byte} {k : Nat} (hk : k < args.length / 2) :
    ∃ a0 a1 : Byte, args[2 * k]? = some a0 ∧ args[2 * k + 1]? = some a1 ∧
      (encodePairs args)[3 * k]? = some a0 ∧ (encodePairs args)[3 * k + 1]? = some a1 ∧
      (encodePairs args)[3 * k + 2]? = some (crc8 a0 a1) := by
  fun_induction encodePairs args generalizing k with
  | case1 a0 a1 args ih =>
    cases k with
    | zero => exact ⟨a0, a1, rfl, rfl, rfl, rfl, rfl⟩
    | succ k => exact ih (by simp only [List.length_cons] at hk; omega)
  | case2 args hshort =>
    match args, hk with
    | [], hk | [_], hk => simp at hk
    | a0 :: a1 :: args, _ => exact absurd rfl (hshort a0 a1 args)

/-! ### Groups by their offsets -/

theorem groupValidAt_eq_true_iff {ins : List Byte} {off : Nat} :
    groupValidAt ins off = true ↔ ∃ d0 d1 c : Byte,
      ins[off]? = some d0 ∧ ins[off + 1]? = some d1 ∧ ins[off + 2]? = some c ∧ crc8 d0 d1 = c := by
  induction off generalizing ins with
  | zero =>
    match ins with
    | [] | [_] | [_, _] => simp [groupValidAt]
    | d0 :: d1 :: c :: rest => simp [groupValid, eq_comm (a := c)]
  | succ off ih =>
    cases ins with
    | nil => simp [groupValidAt]
    | cons b ins => exact ih

theorem groupValidAt_of_getElem? {ins : List Byte} {off : Nat} {d0 d1 c : Byte} (h0 : ins[off]? = some d0)
    (h1 : ins[off + 1]? = some d1) (h2 : ins[off + 2]? = some c) : groupValidAt ins off = groupValid d0 d1 c := by
  rw [Bool.eq_iff_iff, groupValidAt_eq_true_iff, h0, h1, h2]
  simp [groupValid, eq_comm (a := c)]

/-- `DECPAIRS` searches the groups in ascending order for one that is not valid (R75, R76). -/
theorem firstBadGroup_eq_find? (off : Nat) (ins : List Byte) :
    firstBadGroup off ins =
      ((List.range (ins.length / 3)).find? fun g => !groupValidAt ins (3 * g)).map (off + 3 * ·) := by
  fun_induction firstBadGroup off ins with
  | case1 off d0 d1 c rest hvalid ih =>
    have hgroups : (d0 :: d1 :: c :: rest).length / 3 = rest.length / 3 + 1 := by simp; omega
    rw [hgroups, List.range_succ_eq_map, ih]
    simp [hvalid, List.find?_map, Function.comp_def, Nat.mul_add, groupBytes, Nat.add_assoc, Nat.add_comm 3]
  | case2 off d0 d1 c rest hinvalid =>
    have hgroups : (d0 :: d1 :: c :: rest).length / 3 = rest.length / 3 + 1 := by simp; omega
    rw [hgroups, List.range_succ_eq_map]
    simp [hinvalid]
  | case3 ins off hshort =>
    match ins with
    | [] | [_] | [_, _] => simp
    | d0 :: d1 :: c :: rest => exact absurd rfl (hshort d0 d1 c rest)

theorem getElem?_groupData {ins : List Byte} {g : Nat} (hg : g < ins.length / 3) :
    (groupData ins)[2 * g]? = ins[3 * g]? ∧ (groupData ins)[2 * g + 1]? = ins[3 * g + 1]? := by
  fun_induction groupData ins generalizing g with
  | case1 d0 d1 c rest ih =>
    cases g with
    | zero => exact ⟨rfl, rfl⟩
    | succ g => exact ih (by simp only [List.length_cons] at hg; omega)
  | case2 ins hshort =>
    match ins, hg with
    | [], hg | [_], hg | [_, _], hg => simp at hg
    | d0 :: d1 :: c :: rest, _ => exact absurd rfl (hshort d0 d1 c rest)

/-! ### `DECPAIRS` -/

theorem firstBadGroup_zero_eq_none_iff {ins : List Byte} :
    firstBadGroup 0 ins = none ↔ ∀ g, g < ins.length / 3 → groupValidAt ins (3 * g) = true := by
  simp [firstBadGroup_eq_find?]

/-- `DECPAIRS` succeeds on whole groups that are all valid, and only on those (R75). -/
theorem opDecpairs_eq_okay_iff {ins out : List Byte} :
    opDecpairs ins = okay out ↔ ins.length % 3 = 0 ∧
      (∀ g, g < ins.length / 3 → groupValidAt ins (3 * g) = true) ∧ groupData ins = out := by
  rw [← firstBadGroup_zero_eq_none_iff, opDecpairs]
  split
  · next hlen => exact iff_of_false nofun fun h => hlen h.1
  · next hlen =>
    have hgroups : ins.length % 3 = 0 := not_not.mp hlen
    split
    · next hbad => exact iff_of_false nofun fun h => nomatch hbad.symm.trans h.2.1
    · next hnone => simp [okay, hgroups, hnone]

theorem opDecpairs_of_lowest_invalid {ins : List Byte} {g : Nat} (hlen : ins.length % 3 = 0)
    (hg : g < ins.length / 3) (hinvalid : groupValidAt ins (3 * g) = false)
    (hbelow : ∀ j, j < g → groupValidAt ins (3 * j) = true) : opDecpairs ins = raiseMismatch (3 * g) := by
  have hfind : (List.range (ins.length / 3)).find? (fun g => !groupValidAt ins (3 * g)) = some g := by
    simpa [List.find?_range_eq_some] using ⟨hinvalid, hg, hbelow⟩
  simp [opDecpairs, groupBytes, hlen, firstBadGroup_eq_find?, hfind]

theorem opDecpairs_of_partial_group {ins : List Byte} (hlen : ins.length % 3 ≠ 0) :
    opDecpairs ins = raise .invalidBufferLength := if_pos hlen

/-! ### Round trip and corruption -/

theorem groupData_encodePairs {args : List Byte} (heven : args.length % 2 = 0) :
    groupData (encodePairs args) = args := by
  fun_induction encodePairs args with
  | case1 a0 a1 args ih => rw [groupData, ih (by simp only [List.length_cons] at heven; omega)]
  | case2 args hshort =>
    match args with
    | [] => rfl
    | a0 :: a1 :: args => exact absurd rfl (hshort a0 a1 args)

theorem firstBadGroup_encodePairs (off : Nat) (args : List Byte) : firstBadGroup off (encodePairs args) = none := by
  fun_induction encodePairs args generalizing off with
  | case1 a0 a1 args ih => simp [firstBadGroup, groupValid, ih]
  | case2 => rfl

/-- What `ENCODE` emits after the opcode, `DECPAIRS` takes back to the arguments (R77). -/
theorem opDecpairs_encodePairs {args : List Byte} (heven : args.length % 2 = 0) :
    opDecpairs (encodePairs args) = okay args :=
  opDecpairs_eq_okay_iff.mpr ⟨by rw [length_encodePairs, Nat.mul_mod_right],
    firstBadGroup_zero_eq_none_iff.mp (firstBadGroup_encodePairs 0 args), groupData_encodePairs heven⟩

/-- A group does not see a change behind it. -/
theorem groupValidAt_set_of_le {ins : List Byte} {off p : Nat} (h : off + 3 ≤ p) (x : Byte) :
    groupValidAt (ins.set p x) off = groupValidAt ins off := by
  rw [Bool.eq_iff_iff, groupValidAt_eq_true_iff, groupValidAt_eq_true_iff, List.getElem?_set_ne (by omega),
    List.getElem?_set_ne (by omega), List.getElem?_set_ne (by omega)]

/-- A valid group with one byte changed is not valid: R69, by offset. -/
theorem groupValidAt_set_eq_false {ins : List Byte} {off j : Nat} {old x : Byte} (hvalid : groupValidAt ins off = true)
    (hj : j < 3) (hold : ins[off + j]? = some old) (hx : x ≠ old) :
    groupValidAt (ins.set (off + j) x) off = false := by
  obtain ⟨d0, d1, c, h0, h1, h2, hcrc⟩ := groupValidAt_eq_true_iff.mp hvalid
  obtain ⟨hfirst, hsecond, hthird⟩ := singleByteCorruptionIsDetected.1 d0 d1 c x hcrc
  have hchanged : (ins.set (off + j) x)[off + j]? = some x :=
    List.getElem?_set_self (List.getElem?_eq_some_iff.mp hold).1
  have hkept (n : Nat) (hn : j ≠ n) : (ins.set (off + j) x)[off + n]? = ins[off + n]? :=
    List.getElem?_set_ne (by omega)
  match j, hj with
  | 0, _ =>
    obtain rfl := Option.some.inj (h0.symm.trans hold)
    exact (groupValidAt_of_getElem? hchanged ((hkept 1 (by decide)).trans h1) ((hkept 2 (by decide)).trans h2)).trans
      (beq_false_of_ne (hfirst hx))
  | 1, _ =>
    obtain rfl := Option.some.inj (h1.symm.trans hold)
    exact (groupValidAt_of_getElem? ((hkept 0 (by decide)).trans h0) hchanged ((hkept 2 (by decide)).trans h2)).trans
      (beq_false_of_ne (hsecond hx))
  | 2, _ =>
    obtain rfl := Option.some.inj (h2.symm.trans hold)
    exact (groupValidAt_of_getElem? ((hkept 0 (by decide)).trans h0) ((hkept 1 (by decide)).trans h1) hchanged).trans
      (beq_false_of_ne (hthird hx))

/-! ### The statements -/

/-- Settles O16: every pair of arguments is a group of the frame behind the opcode. -/
theorem encodeBuildsTheFrame : Obligations.EncodeBuildsTheFrame := by
  refine ⟨fun ins s hlen heven hcap => ?_, fun ins s hlen hodd hcap => ?_,
    fun ins s hshort => exec_of_operation_eq_operandLength (i := .encode ins) (opEncode_of_short hshort) s,
    fun ins => head?_encode (.encode ins)⟩
  · obtain ⟨h, l, args, rfl⟩ := exists_opcode_of_two_le hlen
    have hargs : (h :: l :: args).length - 2 = args.length := rfl
    rw [hargs] at heven ⊢
    refine ⟨h :: l :: encodePairs args, ?_, ?_, rfl, rfl, fun k hk => ?_⟩
    · rw [exec_of_operation_eq (i := .encode _) hcap (opEncode_of_even heven) s, okay_bytes]
    · rw [List.length_cons, List.length_cons, length_encodePairs]
      omega
    · obtain ⟨a0, a1, hpair⟩ := getElem?_encodePairs hk
      -- the frame and the arguments both stand behind the two opcode bytes
      rw [Nat.add_comm 2, Nat.add_comm 3, Nat.add_comm 2, Nat.add_comm 3, Nat.add_comm 4]
      exact ⟨a0, a1, hpair⟩
  · obtain ⟨h, l, args, rfl⟩ := exists_opcode_of_two_le hlen
    rw [exec_of_operation_eq (i := .encode _) hcap (opEncode_of_odd hodd) s, raise_bytes]
    rfl

/-- Settles O17: no pairs, no groups. -/
theorem encodeWithoutArgumentsIsTheOpcode : Obligations.EncodeWithoutArgumentsIsTheOpcode := by
  intro h l s
  have hframe : opEncode [h, l] = okay [h, l] := opEncode_of_even rfl
  have hbytes : (okay [h, l]).bytes = [0x00#8, 0x00#8, 0x02#8, h, l] := by simp [okay_bytes]
  rw [exec_of_operation_eq_okay (i := .encode [h, l]) (by simp [Instr.operands]) hframe s, hbytes]

/-- Settles O18: the search over the groups finds none invalid, or the lowest one. -/
theorem decpairsChecksAndExtracts : Obligations.DecpairsChecksAndExtracts := by
  refine ⟨fun ins s hlen hcap hvalid => ⟨groupData ins, ?_, length_groupData ins, fun g => getElem?_groupData⟩,
    fun ins s g hlen hcap hg hinvalid hbelow => ?_, fun ins s hlen hcap => ?_,
    fun ins => head?_encode (.decpairs ins)⟩
  · have hpairs : opDecpairs ins = okay (groupData ins) := opDecpairs_eq_okay_iff.mpr ⟨hlen, hvalid, rfl⟩
    rw [exec_of_operation_eq (i := .decpairs _) hcap hpairs s, okay_bytes]
  · have hmismatch : opDecpairs ins = raiseMismatch (3 * g) := opDecpairs_of_lowest_invalid hlen hg hinvalid hbelow
    rw [exec_of_operation_eq (i := .decpairs _) hcap hmismatch s, raiseMismatch_bytes]
  · rw [exec_of_operation_eq (i := .decpairs _) hcap (opDecpairs_of_partial_group hlen) s, raise_bytes]
    rfl

/-- Settles O19: a frame without its opcode is the arguments' groups, all valid. -/
theorem encodeThenDecpairsRoundTrip : Obligations.EncodeThenDecpairsRoundTrip := by
  refine ⟨fun h l args heven => ⟨_, opEncode_of_even heven, opDecpairs_encodePairs heven⟩,
    fun h l args frame s heven hexec hcap u => ?_⟩
  have hframe : okay (h :: l :: encodePairs args) = okay frame :=
    (opEncode_of_even heven).symm.trans (operation_eq_okay_of_exec (i := .encode (h :: l :: args)) hexec)
  obtain rfl := (Response.mk.inj hframe).2
  exact exec_of_operation_eq (i := .decpairs _) hcap (opDecpairs_encodePairs heven) u

/-- Settles O20: the groups below the changed one do not see the change, and R69 makes the changed one invalid. -/
theorem decpairsPinpointsCorruption : Obligations.DecpairsPinpointsCorruption := by
  intro ins out s g j old x hexec hg hj hold hx u
  have hcap : ins.length ≤ Config.inCap := le_inCap_of_exec_eq_okay hexec
  obtain ⟨hlen, hvalid, -⟩ := opDecpairs_eq_okay_iff.mp (operation_eq_okay_of_exec hexec)
  have hcap' : (ins.set (3 * g + j) x).length ≤ Config.inCap := by rwa [List.length_set]
  have hmismatch : opDecpairs (ins.set (3 * g + j) x) = raiseMismatch (3 * g) := by
    apply opDecpairs_of_lowest_invalid
    · rwa [List.length_set]
    · rwa [List.length_set]
    · exact groupValidAt_set_eq_false (hvalid g hg) hj hold hx
    · intro k hk
      rw [groupValidAt_set_of_le (by omega)]
      exact hvalid k (hk.trans hg)
  rw [exec_of_operation_eq (i := .decpairs _) hcap' hmismatch u, raiseMismatch_bytes]

end Sys2Proof.Machine
end

