-- ==== Sys2Proof/Proofs/Decoders.lean ====
section
/-! SUPPORT. `F32REC`, `DECMEAS` and `DECSTAT` (R80 to R91): `DECMEAS` as `DECPAIRS` of 60 bytes, a measurement as ten
lanes of `F32REC`, and the readings an observer makes of a pattern. -/

namespace Sys2Proof.Machine

/-! ### Patterns and half-words -/

/-- The four bytes of a pattern read back as that pattern (R35, R80). -/
theorem pattern_extractLsb' (w : Pattern) :
    pattern (w.extractLsb' 24 8) (w.extractLsb' 16 8) (w.extractLsb' 8 8) (w.extractLsb' 0 8) = w := by
  ext i hi
  simp [pattern]
  grind

theorem half_injective {hi lo hi' lo' : Byte} (h : half hi lo = half hi' lo') : hi = hi' ∧ lo = lo' := by
  simpa using congrArg halfBytes h

/-! ### `F32REC` -/

theorem groupValid_of_eq {d0 d1 c : Byte} (h : crc8 d0 d1 = c) : groupValid d0 d1 c = true := beq_iff_eq.mpr h

theorem groupValid_of_ne {d0 d1 c : Byte} (h : crc8 d0 d1 ≠ c) : groupValid d0 d1 c = false := beq_false_of_ne h

section
variable {h0 h1 hc l0 l1 lc : Byte}

theorem opF32rec_of_valid (hhigh : groupValid h0 h1 hc = true) (hlow : groupValid l0 l1 lc = true) :
    opF32rec [h0, h1, hc, l0, l1, lc] = okay [h0, h1, l0, l1] := by
  simp [opF32rec, hhigh, hlow]

theorem opF32rec_of_high_invalid (hhigh : groupValid h0 h1 hc = false) :
    opF32rec [h0, h1, hc, l0, l1, lc] = raiseMismatch 0 := by
  simp [opF32rec, hhigh]

theorem opF32rec_of_low_invalid (hhigh : groupValid h0 h1 hc = true) (hlow : groupValid l0 l1 lc = false) :
    opF32rec [h0, h1, hc, l0, l1, lc] = raiseMismatch 3 := by
  simp [opF32rec, hhigh, hlow]

end

theorem opF32rec_of_length_ne {ins : List Byte} (h : ins.length ≠ 6) : opF32rec ins = raise .operandLength := by
  unfold opF32rec
  split
  · exact absurd rfl h
  · rfl

theorem okay_channel_bytes (b3 b2 b1 b0 : Byte) :
    (okay [b3, b2, b1, b0]).bytes = [0x00#8, 0x00#8, 0x04#8, b3, b2, b1, b0] := by
  simp [okay_bytes]

/-- A checksum mismatch in the first 256 operand bytes has an offset of one byte (R53, R76). -/
theorem raiseMismatch_bytes_of_lt {off : Nat} (h : off < 256) :
    (raiseMismatch off).bytes = [0x01#8, 0x00#8, 0x02#8, 0x00#8, BitVec.ofNat 8 off] := by
  rw [raiseMismatch_bytes, Nat.div_eq_of_lt h]

/-- The answer to a request of at most 60 operand bytes names the response (R54). -/
theorem exec_eq_next_iff {i : Instr} (hlen : i.operands.length ≤ 60) {s : State} {r : Response} :
    exec i s = .next { s with rx := [], tx := r.bytes } ↔ operation i i.operands = r := by
  constructor
  · intro h
    rw [exec_eq, withinCap_of_le_sixty hlen] at h
    exact response_bytes_injective (congrArg State.tx (Host.Outcome.next.inj h))
  · exact fun h => exec_of_operation_eq (hlen.trans inCap_range.1) h s

section
variable {ins : List Byte} {s : State} {r : Response}

theorem exec_f32rec_iff (hlen : ins.length = 6) :
    exec (.f32rec ins) s = .next { s with rx := [], tx := r.bytes } ↔ opF32rec ins = r :=
  exec_eq_next_iff (i := .f32rec ins) (hlen.trans_le (by decide))

theorem exec_decmeas_iff (hlen : ins.length = 60) :
    exec (.decmeas ins) s = .next { s with rx := [], tx := r.bytes } ↔ opDecmeas ins = r :=
  exec_eq_next_iff (i := .decmeas ins) hlen.le

theorem exec_decstat_iff (hlen : ins.length = 3) :
    exec (.decstat ins) s = .next { s with rx := [], tx := r.bytes } ↔ opDecstat ins = r :=
  exec_eq_next_iff (i := .decstat ins) (hlen.trans_le (by decide))

end

/-! ### `DECMEAS` is `DECPAIRS` of 60 bytes -/

/-- A list of at least one whole channel begins with the six bytes of one (R16). -/
theorem exists_channel_of_length {ins : List Byte} {n : Nat} (h : ins.length = 6 * (n + 1)) :
    ∃ h0 h1 hc l0 l1 lc rest, ins = h0 :: h1 :: hc :: l0 :: l1 :: lc :: rest ∧ rest.length = 6 * n := by
  match ins, h with
  | h0 :: h1 :: hc :: l0 :: l1 :: lc :: rest, h =>
    exact ⟨h0, h1, hc, l0, l1, lc, rest, rfl, by simp only [List.length_cons] at h; omega⟩

/-- Channel by channel and the high half first is group by group (R75, R83). -/
theorem firstBadHalf_eq_firstBadGroup {n : Nat} {ins : List Byte} (hlen : ins.length = 6 * n) (off : Nat) :
    firstBadHalf off ins = firstBadGroup off ins := by
  induction n generalizing ins off with
  | zero =>
    obtain rfl := List.eq_nil_of_length_eq_zero hlen
    rfl
  | succ n ih =>
    obtain ⟨h0, h1, hc, l0, l1, lc, rest, rfl, hrest⟩ := exists_channel_of_length hlen
    cases hhigh : groupValid h0 h1 hc
    · simp [firstBadHalf, firstBadGroup, hhigh]
    · cases hlow : groupValid l0 l1 lc
      · simp [firstBadHalf, firstBadGroup, hhigh, hlow, groupBytes]
      · simp [firstBadHalf, firstBadGroup, hhigh, hlow, groupBytes, channelBytesIn, ih hrest]

/-- The patterns of whole channels are the data bytes of their groups (R75, R83). -/
theorem channelPatterns_eq_groupData {n : Nat} {ins : List Byte} (hlen : ins.length = 6 * n) :
    channelPatterns ins = groupData ins := by
  induction n generalizing ins with
  | zero =>
    obtain rfl := List.eq_nil_of_length_eq_zero hlen
    rfl
  | succ n ih =>
    obtain ⟨h0, h1, hc, l0, l1, lc, rest, rfl, hrest⟩ := exists_channel_of_length hlen
    simp [channelPatterns, groupData, ih hrest]

theorem opDecmeas_eq_opDecpairs {ins : List Byte} (hlen : ins.length = 60) : opDecmeas ins = opDecpairs ins := by
  have hchannels : ins.length = 6 * 10 := hlen
  cases hbad : firstBadGroup 0 ins <;>
    simp [opDecmeas, opDecpairs, hlen, measLen, groupBytes, firstBadHalf_eq_firstBadGroup hchannels,
      channelPatterns_eq_groupData hchannels, hbad]

theorem opDecmeas_of_length_ne {ins : List Byte} (h : ins.length ≠ 60) : opDecmeas ins = raise .operandLength :=
  if_pos h

section
variable {ins : List Byte} (hlen : ins.length = 60)
include hlen

/-- `DECMEAS` of 60 bytes succeeds when all twenty half-word groups are valid, and only then (R83, R85). -/
theorem opDecmeas_eq_okay_iff {out : List Byte} :
    opDecmeas ins = okay out ↔ (∀ g, g < 20 → groupValidAt ins (3 * g) = true) ∧ groupData ins = out := by
  simp [opDecmeas_eq_opDecpairs hlen, opDecpairs_eq_okay_iff, hlen]

theorem opDecmeas_of_lowest_invalid {i h : Nat} (hi : i < 10) (hh : h = 0 ∨ h = 3)
    (hinvalid : groupValidAt ins (6 * i + h) = false)
    (hbelow : ∀ g, 3 * g < 6 * i + h → groupValidAt ins (3 * g) = true) :
    opDecmeas ins = raiseMismatch (6 * i + h) := by
  obtain ⟨g, hg⟩ : ∃ g, 6 * i + h = 3 * g := ⟨2 * i + h / 3, by omega⟩
  rw [hg] at hinvalid hbelow ⊢
  rw [opDecmeas_eq_opDecpairs hlen]
  exact opDecpairs_of_lowest_invalid (by omega) (by omega) hinvalid fun j hj => hbelow j (by omega)

end

/-- Payload bytes `4i` to `4i + 3` are the data bytes of groups `2i` and `2i + 1` (R84). -/
theorem getElem?_groupData_channel {ins : List Byte} {i : Nat} (hi : i < ins.length / 6) :
    (groupData ins)[4 * i]? = ins[6 * i]? ∧ (groupData ins)[4 * i + 1]? = ins[6 * i + 1]? ∧
      (groupData ins)[4 * i + 2]? = ins[6 * i + 3]? ∧ (groupData ins)[4 * i + 3]? = ins[6 * i + 4]? := by
  obtain ⟨hhigh0, hhigh1⟩ := getElem?_groupData (ins := ins) (g := 2 * i) (by omega)
  obtain ⟨hlow0, hlow1⟩ := getElem?_groupData (ins := ins) (g := 2 * i + 1) (by omega)
  rw [← Nat.mul_assoc, ← Nat.mul_assoc] at hhigh0 hhigh1
  rw [Nat.mul_add, Nat.mul_add, ← Nat.mul_assoc, ← Nat.mul_assoc] at hlow0 hlow1
  exact ⟨hhigh0, hhigh1, hlow0, hlow1⟩

/-! ### Lanes -/

/-- A lane's two groups are the groups of the whole list at that channel (R16). -/
theorem groupValidAt_lane (ins : List Byte) (i : Nat) {o : Nat} (ho : o ≤ 3) :
    groupValidAt (lane ins i) o = groupValidAt ins (6 * i + o) := by
  have hbyte (k : Nat) (hk : k < 6) : (lane ins i)[k]? = ins[6 * i + k]? := by
    rw [lane, List.getElem?_take_of_lt hk, List.getElem?_drop]
  rw [Bool.eq_iff_iff, groupValidAt_eq_true_iff, groupValidAt_eq_true_iff, hbyte o (by omega),
    hbyte (o + 1) (by omega), hbyte (o + 2) (by omega)]
  rfl

theorem length_lane {ins : List Byte} {i : Nat} (hlen : ins.length = 60) (hi : i < 10) :
    (lane ins i).length = 6 := by
  rw [lane, List.length_take, List.length_drop, hlen]
  omega

/-- Whole channels give their data bytes lane after lane (R84, R86). -/
theorem groupData_eq_flatMap_lane {n : Nat} {ins : List Byte} (hlen : ins.length = 6 * n) :
    groupData ins = (List.range n).flatMap fun i => groupData (lane ins i) := by
  induction n generalizing ins with
  | zero =>
    obtain rfl := List.eq_nil_of_length_eq_zero hlen
    rfl
  | succ n ih =>
    obtain ⟨h0, h1, hc, l0, l1, lc, rest, rfl, hrest⟩ := exists_channel_of_length hlen
    have htail (i : Nat) : lane (h0 :: h1 :: hc :: l0 :: l1 :: lc :: rest) (i + 1) = lane rest i := by
      simp [lane, Nat.mul_add]
    rw [List.range_succ_eq_map, List.flatMap_cons, List.flatMap_map]
    simp only [htail, ← ih hrest]
    simp [lane, groupData]

/-- The three answers of `F32REC` to one channel (R82). -/
theorem opF32rec_cases {ins : List Byte} (hlen : ins.length = 6) :
    (groupValidAt ins 0 = true ∧ groupValidAt ins 3 = true ∧ opF32rec ins = okay (groupData ins)) ∨
      (groupValidAt ins 0 = false ∧ opF32rec ins = raiseMismatch 0) ∨
      (groupValidAt ins 0 = true ∧ groupValidAt ins 3 = false ∧ opF32rec ins = raiseMismatch 3) := by
  obtain ⟨h0, h1, hc, l0, l1, lc, rest, rfl, hrest⟩ := exists_channel_of_length (n := 0) hlen
  obtain rfl := List.eq_nil_of_length_eq_zero hrest
  cases hhigh : groupValid h0 h1 hc
  · exact .inr (.inl ⟨hhigh, opF32rec_of_high_invalid hhigh⟩)
  · cases hlow : groupValid l0 l1 lc
    · exact .inr (.inr ⟨hhigh, hlow, opF32rec_of_low_invalid hhigh hlow⟩)
    · exact .inl ⟨hhigh, hlow, opF32rec_of_valid hhigh hlow⟩

/-- Groups are the high and the low halves of channels (R16). -/
theorem groups_valid_of_channels_valid {ins : List Byte} {n : Nat}
    (h : ∀ i, i < n → groupValidAt ins (6 * i) = true ∧ groupValidAt ins (6 * i + 3) = true) :
    ∀ g, g < 2 * n → groupValidAt ins (3 * g) = true := by
  intro g hg
  obtain ⟨i, rfl | rfl⟩ := Nat.even_or_odd' g
  · rw [← Nat.mul_assoc]
    exact (h i (by omega)).1
  · rw [Nat.mul_add, ← Nat.mul_assoc]
    exact (h i (by omega)).2

section
variable {ins : List Byte} (hlen : ins.length = 60) {i : Nat} (hi : i < 10)
include hlen hi

theorem opF32rec_lane_cases :
    (groupValidAt ins (6 * i) = true ∧ groupValidAt ins (6 * i + 3) = true ∧
        opF32rec (lane ins i) = okay (groupData (lane ins i))) ∨
      (groupValidAt ins (6 * i) = false ∧ opF32rec (lane ins i) = raiseMismatch 0) ∨
      (groupValidAt ins (6 * i) = true ∧ groupValidAt ins (6 * i + 3) = false ∧
        opF32rec (lane ins i) = raiseMismatch 3) := by
  simpa [groupValidAt_lane] using opF32rec_cases (length_lane hlen hi)

theorem valid_of_opF32rec_lane_eq_okay {w : List Byte} (h : opF32rec (lane ins i) = okay w) :
    (groupValidAt ins (6 * i) = true ∧ groupValidAt ins (6 * i + 3) = true) ∧ groupData (lane ins i) = w := by
  rcases opF32rec_lane_cases hlen hi with ⟨hhigh, hlow, hokay⟩ | ⟨-, hbad⟩ | ⟨-, -, hbad⟩
  · exact ⟨⟨hhigh, hlow⟩, (Response.mk.inj (hokay.symm.trans h)).2⟩
  · exact nomatch hbad.symm.trans h
  · exact nomatch hbad.symm.trans h

end

section
variable {ins : List Byte} (hlen : ins.length = 60)
include hlen

/-- Ten channels that succeed alone succeed together (R86). -/
theorem opDecmeas_of_lanes_okay {w : Nat → List Byte} (h : ∀ i, i < 10 → opF32rec (lane ins i) = okay (w i)) :
    opDecmeas ins = okay ((List.range 10).flatMap w) := by
  have hlane (i : Nat) (hi : i < 10) := valid_of_opF32rec_lane_eq_okay hlen hi (h i hi)
  refine (opDecmeas_eq_okay_iff hlen).mpr ⟨groups_valid_of_channels_valid fun i hi => (hlane i hi).1, ?_⟩
  rw [groupData_eq_flatMap_lane (n := 10) hlen]
  exact List.flatMap_congr fun i hi => (hlane i (List.mem_range.mp hi)).2

/-- The lowest channel that fails alone gives the offset (R86). -/
theorem opDecmeas_of_lowest_lane_fails {i o : Nat} (hi : i < 10) (ho : o = 0 ∨ o = 3)
    (hbelow : ∀ j, j < i → ∃ w, opF32rec (lane ins j) = okay w)
    (hfail : opF32rec (lane ins i) = raiseMismatch o) : opDecmeas ins = raiseMismatch (6 * i + o) := by
  have hchannels (j : Nat) (hj : j < i) : groupValidAt ins (6 * j) = true ∧ groupValidAt ins (6 * j + 3) = true := by
    obtain ⟨w, hw⟩ := hbelow j hj
    exact (valid_of_opF32rec_lane_eq_okay hlen (hj.trans hi) hw).1
  have hgroups := groups_valid_of_channels_valid hchannels
  have hdiffer : raiseMismatch 0 ≠ raiseMismatch 3 := by decide
  rcases opF32rec_lane_cases hlen hi with ⟨-, -, hokay⟩ | ⟨hinvalid, hmismatch⟩ | ⟨hhigh, hinvalid, hmismatch⟩
  · exact nomatch hokay.symm.trans hfail
  · obtain rfl := ho.resolve_right fun h3 => hdiffer (hmismatch.symm.trans (h3 ▸ hfail))
    exact opDecmeas_of_lowest_invalid hlen hi (.inl rfl) hinvalid fun g hg => hgroups g (by omega)
  · obtain rfl := ho.resolve_left fun h0 => hdiffer.symm (hmismatch.symm.trans (h0 ▸ hfail))
    refine opDecmeas_of_lowest_invalid hlen hi (.inr rfl) hinvalid fun g hg => ?_
    obtain hlt | rfl : g < 2 * i ∨ g = 2 * i := by omega
    · exact hgroups g hlt
    · rwa [← Nat.mul_assoc]

/-- All ten channels succeed, or there is a lowest one that fails (R86). -/
theorem lanes_okay_or_lowest_fails :
    (∀ i, i < 10 → opF32rec (lane ins i) = okay (groupData (lane ins i))) ∨
      ∃ i o : Nat, i < 10 ∧ (o = 0 ∨ o = 3) ∧
        (∀ j, j < i → opF32rec (lane ins j) = okay (groupData (lane ins j))) ∧
        opF32rec (lane ins i) = raiseMismatch o := by
  by_cases hall : ∀ i, i < 10 → opF32rec (lane ins i) = okay (groupData (lane ins i))
  · exact .inl hall
  · push Not at hall
    have hi := (Nat.find_spec hall).1
    have hbelow (j : Nat) (hj : j < Nat.find hall) : opF32rec (lane ins j) = okay (groupData (lane ins j)) := by
      by_contra hfail
      exact Nat.find_min hall hj ⟨hj.trans hi, hfail⟩
    rcases opF32rec_lane_cases hlen hi with ⟨-, -, hokay⟩ | ⟨-, hmismatch⟩ | ⟨-, -, hmismatch⟩
    · exact absurd hokay (Nat.find_spec hall).2
    · exact .inr ⟨_, 0, hi, .inl rfl, hbelow, hmismatch⟩
    · exact .inr ⟨_, 3, hi, .inr rfl, hbelow, hmismatch⟩

end

/-! ### `DECSTAT` -/

theorem opDecstat_of_valid {v1 v0 c : Byte} (h : groupValid v1 v0 c = true) :
    opDecstat [v1, v0, c] = okay [boolByte (half v1 v0 == statusTrue)] := by
  simp [opDecstat, h]

theorem opDecstat_of_invalid {v1 v0 c : Byte} (h : groupValid v1 v0 c = false) :
    opDecstat [v1, v0, c] = raiseMismatch 0 := by
  simp [opDecstat, h]

theorem opDecstat_of_length_ne {ins : List Byte} (h : ins.length ≠ 3) : opDecstat ins = raise .operandLength := by
  unfold opDecstat
  split
  · exact absurd rfl h
  · rfl

theorem half_eq_statusTrue_iff {v1 v0 : Byte} : half v1 v0 = statusTrue ↔ v1 = 0x00#8 ∧ v0 = 0x01#8 := by
  have hword : statusTrue = half 0x00#8 0x01#8 := by decide
  rw [hword]
  constructor
  · exact half_injective
  · rintro ⟨rfl, rfl⟩
    rfl

/-! ### What an observer reads -/

theorem channelIndex_lt (c : Channel) : channelIndex c < 10 := by
  cases c <;> decide

theorem take_four_drop {l : List Byte} {n : Nat} {a b c d : Byte} (ha : l[n]? = some a) (hb : l[n + 1]? = some b)
    (hc : l[n + 2]? = some c) (hd : l[n + 3]? = some d) : (l.drop n).take 4 = [a, b, c, d] := by
  simp [List.take_add_one, ha, hb, hc, hd]

section
variable {w : Pattern} {negative : Bool}

theorem floatReading_infinity (hsign : signBit w = negative) (he : (exponentField w).toNat = 255)
    (hf : fractionField w = 0#23) : floatReading w = .infinity negative := by
  simp [floatReading, he, hf, hsign]

theorem floatReading_nan {payload : BitVec 23} (he : (exponentField w).toNat = 255) (hf : fractionField w = payload)
    (hne : payload ≠ 0#23) : floatReading w = .nan (payload.getLsbD 22) payload := by
  simp [floatReading, he, hf, hne]

section
variable {f : Nat} {magnitude : ℚ}

theorem floatReading_subnormal (hsign : signBit w = negative) (he : (exponentField w).toNat = 0)
    (hf : (fractionField w).toNat = f) (hmagnitude : (2 : ℚ) ^ (-126 : ℤ) * ((f : ℚ) / 2 ^ 23) = magnitude) :
    floatReading w = .finite negative magnitude := by
  simp [floatReading, he, hf, hsign, ← hmagnitude]

theorem floatReading_normal {e : Nat} (hsign : signBit w = negative) (he : (exponentField w).toNat = e)
    (hf : (fractionField w).toNat = f) (hrange : 0 < e ∧ e < 255)
    (hmagnitude : (2 : ℚ) ^ ((e : ℤ) - 127) * (1 + (f : ℚ) / 2 ^ 23) = magnitude) :
    floatReading w = .finite negative magnitude := by
  simp [floatReading, he, hf, hsign, hrange.1.ne', hrange.2.ne, ← hmagnitude]

end

end

/-! ### The statements -/

/-- Settles O25: on whole channels the two searches and the two extractions are one. -/
theorem decmeasAgreesWithDecpairs : Obligations.DecmeasAgreesWithDecpairs := by
  intro ins s hlen
  rw [exec_of_operation_eq (i := .decpairs ins) (hlen.trans_le inCap_range.1) rfl s]
  exact (exec_decmeas_iff hlen).mpr (opDecmeas_eq_opDecpairs hlen)

/-- Settles O24: each lane's answer is the validity of its two groups, and the lowest failing lane holds the lowest
invalid group. -/
theorem decmeasIsTenLanes : Obligations.DecmeasIsTenLanes := by
  intro ins s hlen
  have hlane {i : Nat} (hi : i < 10) {r : Response} :
      exec (.f32rec (lane ins i)) s = .next { s with rx := [], tx := r.bytes } ↔ opF32rec (lane ins i) = r :=
    exec_f32rec_iff (length_lane hlen hi)
  simp only [exec_decmeas_iff hlen]
  refine ⟨fun w hw => ?_, fun i o hi ho hbelow hfail => ?_, ?_⟩
  · exact opDecmeas_of_lanes_okay hlen fun i hi => (hlane hi).mp (hw i hi)
  · refine opDecmeas_of_lowest_lane_fails hlen hi ho (fun j hj => ?_) ((hlane hi).mp hfail)
    obtain ⟨w, hw⟩ := hbelow j hj
    exact ⟨w, (hlane (hj.trans hi)).mp hw⟩
  · rcases lanes_okay_or_lowest_fails hlen with hall | ⟨i, o, hi, ho, hbelow, hfail⟩
    · exact .inl ⟨_, fun i hi => (hlane hi).mpr (hall i hi)⟩
    · exact .inr ⟨i, o, hi, ho, fun j hj => ⟨_, (hlane (hj.trans hi)).mpr (hbelow j hj)⟩, (hlane hi).mpr hfail⟩

/-- Settles O23: `DECMEAS` is `DECPAIRS` of twenty groups, two to a channel. -/
theorem decmeasRebuildsAllOrNothing : Obligations.DecmeasRebuildsAllOrNothing := by
  refine ⟨fun ins s hlen hvalid => ?_, fun ins s i h hlen hi hh hinvalid hbelow => ?_,
    fun ins s h => exec_of_operation_eq_operandLength (i := .decmeas ins) (opDecmeas_of_length_ne h) s,
    fun ins => head?_encode (.decmeas ins)⟩
  · have hpatterns : opDecmeas ins = okay (groupData ins) := (opDecmeas_eq_okay_iff hlen).mpr ⟨hvalid, rfl⟩
    have hlength : (groupData ins).length = 40 := by rw [length_groupData, hlen]
    refine ⟨groupData ins, ?_, hlength, fun i hi => getElem?_groupData_channel (by rwa [hlen])⟩
    rw [(exec_decmeas_iff hlen).mpr hpatterns, okay_bytes, hlength]
  · have hmismatch := opDecmeas_of_lowest_invalid hlen hi hh hinvalid hbelow
    rw [(exec_decmeas_iff hlen).mpr hmismatch, raiseMismatch_bytes_of_lt (by omega)]

/-- Settles O26: the table is the definitions', and a success is `groupData`, whose bytes `4i` to `4i + 3` the
observer reads as one pattern. -/
theorem channelMapFollowsTheInput : Obligations.ChannelMapFollowsTheInput := by
  refine ⟨rfl, fun ins out s c hlen hexec => ?_⟩
  have hi : channelIndex c < 10 := channelIndex_lt c
  obtain ⟨-, rfl⟩ := (opDecmeas_eq_okay_iff hlen).mp ((exec_decmeas_iff hlen).mp hexec)
  have hbyte (k : Nat) (hk : k < 6) : ∃ b, ins[6 * channelIndex c + k]? = some b :=
    ⟨_, List.getElem?_eq_getElem (by omega)⟩
  obtain ⟨h0, hh0⟩ := hbyte 0 (by decide)
  obtain ⟨h1, hh1⟩ := hbyte 1 (by decide)
  obtain ⟨l0, hl0⟩ := hbyte 3 (by decide)
  obtain ⟨l1, hl1⟩ := hbyte 4 (by decide)
  obtain ⟨hout0, hout1, hout2, hout3⟩ := getElem?_groupData_channel (ins := ins) (i := channelIndex c) (by omega)
  have hread : ((groupData ins).drop (4 * channelIndex c)).take 4 = [h0, h1, l0, l1] :=
    take_four_drop (hout0.trans hh0) (hout1.trans hh1) (hout2.trans hl0) (hout3.trans hl1)
  exact ⟨h0, h1, l0, l1, hh0, hh1, hl0, hl1, hread, by rw [channelPattern, hread]⟩

/-- Settles O21, by the validity of the two groups. -/
theorem f32recRebuildsTheChannel : Obligations.F32recRebuildsTheChannel := by
  refine ⟨fun h0 h1 hc l0 l1 lc s hhigh hlow => ?_, fun h0 h1 hc l0 l1 lc s hhigh => ?_,
    fun h0 h1 hc l0 l1 lc s hhigh hlow => ?_,
    fun ins s h => exec_of_operation_eq_operandLength (i := .f32rec ins) (opF32rec_of_length_ne h) s,
    fun ins => head?_encode (.f32rec ins)⟩
  · rw [← okay_channel_bytes]
    exact (exec_f32rec_iff rfl).mpr (opF32rec_of_valid (groupValid_of_eq hhigh) (groupValid_of_eq hlow))
  · rw [← raiseMismatch_bytes_of_lt (off := 0) (by decide)]
    exact (exec_f32rec_iff rfl).mpr (opF32rec_of_high_invalid (groupValid_of_ne hhigh))
  · rw [← raiseMismatch_bytes_of_lt (off := 3) (by decide)]
    exact (exec_f32rec_iff rfl).mpr (opF32rec_of_low_invalid (groupValid_of_eq hhigh) (groupValid_of_ne hlow))

/-- Settles O22: a channel with its own two checksums is valid, and its bytes are the pattern's. -/
theorem everyPatternPassesUnchanged : Obligations.EveryPatternPassesUnchanged :=
  fun w s => ⟨f32recRebuildsTheChannel.1 _ _ _ _ _ _ s rfl rfl, pattern_extractLsb' w⟩

/-- Settles O27: the first example is `ENCODE`'s groups for the forty payload bytes, and the first group of the second
is not valid. -/
theorem measurementExamples : Obligations.MeasurementExamples := by
  intro s
  constructor
  · have hframe : [0x3F#8, 0x80#8, 0xD0#8, 0x00#8, 0x00#8, 0x81#8] ++
          (List.replicate 9 [0x00#8, 0x00#8, 0x81#8, 0x00#8, 0x00#8, 0x81#8]).flatten =
        encodePairs ([0x3F#8, 0x80#8, 0x00#8, 0x00#8] ++ List.replicate 36 0x00#8) := by
      simp [encodePairs, List.replicate, crc8_zeros, crc8_float_one]
    rw [hframe, (exec_decmeas_iff rfl).mpr ((opDecmeas_eq_opDecpairs rfl).trans (opDecpairs_encodePairs rfl)), okay_bytes]
    rfl
  · have hinvalid : groupValid 0xFF#8 0xFF#8 0xFF#8 = false := groupValid_of_ne (by simp [crc8_ones])
    exact decmeasRebuildsAllOrNothing.2.1 (List.replicate 60 0xFF#8) s 0 0 rfl (by decide) (.inl rfl) hinvalid
      fun g hg => absurd hg (Nat.not_lt_zero _)

/-- Settles O28: a status word is true when its two bytes are those of 0x0001. -/
theorem decstatAnswersTrueOnlyForOne : Obligations.DecstatAnswersTrueOnlyForOne := by
  have hvalid (v1 v0 : Byte) (s : State) : exec (.decstat [v1, v0, crc8 v1 v0]) s =
      .next { s with rx := [], tx := [0x00#8, 0x00#8, 0x01#8, boolByte (half v1 v0 == statusTrue)] } := by
    rw [← okay_singleton_bytes]
    exact (exec_decstat_iff rfl).mpr (opDecstat_of_valid (groupValid_of_eq rfl))
  refine ⟨hvalid _ _, ?_, fun v1 v0 c s hinvalid => ?_,
    fun ins s h => exec_of_operation_eq_operandLength (i := .decstat ins) (opDecstat_of_length_ne h) s,
    fun ins => head?_encode (.decstat ins)⟩
  · rintro v1 v0 _ s rfl hword
    rw [hvalid, beq_false_of_ne (half_eq_statusTrue_iff.not.mpr hword)]
    rfl
  · rw [← raiseMismatch_bytes_of_lt (off := 0) (by decide)]
    exact (exec_decstat_iff rfl).mpr (opDecstat_of_invalid (groupValid_of_ne hinvalid))

/-- Settles O29: the fields of each pattern choose its class, and its magnitude is arithmetic. -/
theorem floatReadingsOfTheSpec : Obligations.FloatReadingsOfTheSpec := by
  refine ⟨?_, ?_, ?_, ?_, ?_, ?_, ?_, ?_, ?_, ?_, floatReading_infinity rfl rfl rfl, floatReading_infinity rfl rfl rfl,
    floatReading_nan rfl rfl (by decide), floatReading_nan rfl rfl (by decide)⟩
  · exact floatReading_normal (e := 127) (f := 0) rfl rfl rfl (by decide) (by norm_num)
  · exact floatReading_subnormal (f := 0) rfl rfl rfl (by norm_num)
  · exact floatReading_subnormal (f := 0) rfl rfl rfl (by norm_num)
  · exact floatReading_normal (e := 127) (f := 0) rfl rfl rfl (by decide) (by norm_num)
  · exact floatReading_normal (e := 130) (f := 0x480000) rfl rfl rfl (by decide) (by norm_num)
  · exact floatReading_normal (e := 133) (f := 0x3E8000) rfl rfl rfl (by decide) (by norm_num)
  · exact floatReading_normal (e := 126) (f := 0) rfl rfl rfl (by decide) (by norm_num)
  · exact floatReading_subnormal (f := 1) rfl rfl rfl (by norm_num)
  · exact floatReading_normal (e := 1) (f := 0) rfl rfl rfl (by decide) (by norm_num)
  · exact floatReading_normal (e := 254) (f := 0x7FFFFF) rfl rfl rfl (by decide) (by norm_num)

end Sys2Proof.Machine
end

