-- ==== Sys2Proof/Proofs/ErrorOrder.lean ====
section
/-! SUPPORT. Which error an operation reports (R93, R97), and the frame of every operation (R92, R99). -/

namespace Sys2Proof.Machine

/-! ### The expected error, line by line of R97 -/

/-- The lowest failing offset among the groups an operation checks (R97, line 5). -/
def firstInvalidOffset (i : Instr) : Option Nat := (checkedOffsets i).find? fun off => !groupValidAt i.operands off

section
variable {cap : Nat} {i : Instr}

theorem expectedError_of_gt (hcap : cap < i.operands.length) : expectedError cap i = some (raise .operandLength) :=
  if_pos hcap

theorem expectedError_of_lengthError_eq_some {e : Status} (hcap : i.operands.length ≤ cap)
    (hlen : lengthError i = some e) : expectedError cap i = some (raise e) := by
  simp [expectedError, Nat.not_lt.mpr hcap, hlen]

theorem expectedError_of_lengthError_eq_none (hcap : i.operands.length ≤ cap) (hlen : lengthError i = none) :
    expectedError cap i = (firstInvalidOffset i).map raiseMismatch := by
  simp [expectedError, Nat.not_lt.mpr hcap, hlen, firstInvalidOffset]

end

/-! ### Lengths an operation cannot take -/

theorem opEncode_of_odd_length {ins : List Byte} (hopcode : 2 ≤ ins.length) (hodd : (ins.length - 2) % 2 = 1) :
    opEncode ins = raise .invalidArgumentLength := by
  obtain ⟨hi, lo, args, rfl⟩ := exists_opcode_of_two_le hopcode
  exact opEncode_of_odd hodd

theorem opEncode_of_lengthError_eq_some {ins : List Byte} {e : Status} (h : lengthError (.encode ins) = some e) :
    opEncode ins = raise e := by
  rw [lengthError] at h
  split at h
  · next hshort =>
    obtain rfl := Option.some.inj h
    exact opEncode_of_short hshort
  · next hopcode =>
    obtain ⟨hodd, hstatus⟩ := Option.ite_none_right_eq_some.mp h
    obtain rfl := Option.some.inj hstatus
    exact opEncode_of_odd_length (Nat.not_lt.mp hopcode) hodd

/-- An operation answers the error of its length, whatever the operand bytes are (R97, lines 3 and 4). -/
theorem operation_of_lengthError_eq_some {i : Instr} {e : Status} (h : lengthError i = some e) :
    operation i i.operands = raise e := by
  cases i with
  | crc8 ins =>
    obtain ⟨hlen, ⟨⟩⟩ := Option.ite_none_left_eq_some.mp h
    exact opCrc8_of_length_ne hlen
  | crcchk ins =>
    obtain ⟨hlen, ⟨⟩⟩ := Option.ite_none_left_eq_some.mp h
    exact opCrcchk_of_length_ne hlen
  | encode ins => exact opEncode_of_lengthError_eq_some h
  | decpairs ins =>
    obtain ⟨hlen, ⟨⟩⟩ := Option.ite_none_left_eq_some.mp h
    exact opDecpairs_of_partial_group hlen
  | f32rec ins =>
    obtain ⟨hlen, ⟨⟩⟩ := Option.ite_none_left_eq_some.mp h
    exact opF32rec_of_length_ne hlen
  | decmeas ins =>
    obtain ⟨hlen, ⟨⟩⟩ := Option.ite_none_left_eq_some.mp h
    exact opDecmeas_of_length_ne hlen
  | decstat ins =>
    obtain ⟨hlen, ⟨⟩⟩ := Option.ite_none_left_eq_some.mp h
    exact opDecstat_of_length_ne hlen

/-! ### Groups that fail, at a length the operation takes -/

section
variable {ins : List Byte}

theorem exists_opCrc8_eq_okay (hlen : ins.length = 2) : ∃ out, opCrc8 ins = okay out := by
  obtain ⟨d0, d1, rfl⟩ := List.length_eq_two.mp hlen
  exact ⟨_, rfl⟩

theorem exists_opCrcchk_eq_okay (hlen : ins.length = 3) : ∃ out, opCrcchk ins = okay out := by
  obtain ⟨d0, d1, c, rfl⟩ := List.length_eq_three.mp hlen
  exact ⟨_, rfl⟩

theorem exists_opEncode_eq_okay (hlen : lengthError (.encode ins) = none) : ∃ out, opEncode ins = okay out := by
  rw [lengthError] at hlen
  split at hlen
  · exact nomatch hlen
  · next hopcode =>
    obtain ⟨hi, lo, args, rfl⟩ := exists_opcode_of_two_le (Nat.not_lt.mp hopcode)
    exact ⟨_, opEncode_of_even (by simpa using hlen)⟩

/-- The search group by group is the search over the offsets `DECPAIRS` checks (R75). -/
theorem firstBadGroup_zero_eq_firstInvalidOffset (ins : List Byte) :
    firstBadGroup 0 ins = firstInvalidOffset (.decpairs ins) := by
  rw [firstBadGroup_eq_find?, firstInvalidOffset, checkedOffsets, List.find?_map]
  simp [Function.comp_def, Instr.operands]

theorem opDecpairs_of_whole_groups (hlen : ins.length % 3 = 0) :
    opDecpairs ins = ((firstInvalidOffset (.decpairs ins)).map raiseMismatch).getD (okay (groupData ins)) := by
  rw [← firstBadGroup_zero_eq_firstInvalidOffset]
  cases hbad : firstBadGroup 0 ins <;> simp [opDecpairs, groupBytes, hlen, hbad]

/-- Twenty groups are checked whether 60 bytes are taken as channels or as pairs (R87). -/
theorem firstInvalidOffset_decmeas (hlen : ins.length = 60) :
    firstInvalidOffset (.decmeas ins) = firstInvalidOffset (.decpairs ins) := by
  simp [firstInvalidOffset, checkedOffsets, Instr.operands, hlen]

theorem opDecmeas_of_whole_measurement (hlen : ins.length = 60) :
    opDecmeas ins = ((firstInvalidOffset (.decmeas ins)).map raiseMismatch).getD (okay (groupData ins)) := by
  rw [opDecmeas_eq_opDecpairs hlen, firstInvalidOffset_decmeas hlen, opDecpairs_of_whole_groups (by rw [hlen])]

theorem opF32rec_of_whole_channel (hlen : ins.length = 6) :
    opF32rec ins = ((firstInvalidOffset (.f32rec ins)).map raiseMismatch).getD (okay (groupData ins)) := by
  rcases opF32rec_cases hlen with ⟨hhigh, hlow, hokay⟩ | ⟨hhigh, hmismatch⟩ | ⟨hhigh, hlow, hmismatch⟩
  · simp [firstInvalidOffset, checkedOffsets, Instr.operands, hhigh, hlow, hokay]
  · simp [firstInvalidOffset, checkedOffsets, Instr.operands, hhigh, hmismatch]
  · simp [firstInvalidOffset, checkedOffsets, Instr.operands, hhigh, hlow, hmismatch]

theorem opDecstat_of_whole_group (hlen : ins.length = 3) :
    ∃ out, opDecstat ins = ((firstInvalidOffset (.decstat ins)).map raiseMismatch).getD (okay out) := by
  obtain ⟨v1, v0, c, rfl⟩ := List.length_eq_three.mp hlen
  refine ⟨[boolByte (half v1 v0 == statusTrue)], ?_⟩
  cases hgroup : groupValid v1 v0 c
  · simp [firstInvalidOffset, checkedOffsets, Instr.operands, hgroup, opDecstat_of_invalid]
  · simp [firstInvalidOffset, checkedOffsets, Instr.operands, hgroup, opDecstat_of_valid]

end

/-- At a length it takes, an operation answers the lowest failing group it checks, and `OK` when none fails. -/
theorem operation_of_lengthError_eq_none {i : Instr} (h : lengthError i = none) :
    ∃ out, operation i i.operands = ((firstInvalidOffset i).map raiseMismatch).getD (okay out) := by
  cases i with
  | crc8 ins => exact exists_opCrc8_eq_okay (by simpa [lengthError, Instr.operands] using h)
  | crcchk ins => exact exists_opCrcchk_eq_okay (by simpa [lengthError, Instr.operands] using h)
  | encode ins => exact exists_opEncode_eq_okay h
  | decpairs ins => exact ⟨_, opDecpairs_of_whole_groups (by simpa [lengthError, Instr.operands] using h)⟩
  | f32rec ins => exact ⟨_, opF32rec_of_whole_channel (by simpa [lengthError, Instr.operands] using h)⟩
  | decmeas ins => exact ⟨_, opDecmeas_of_whole_measurement (by simpa [lengthError, Instr.operands] using h)⟩
  | decstat ins => exact opDecstat_of_whole_group (by simpa [lengthError, Instr.operands] using h)

/-! ### The order of R97 -/

/-- Behind a capacity check an operation answers the first error of R97, and `OK` when none applies. -/
theorem withinCap_operation_eq_expectedError (cap : Nat) (i : Instr) :
    ∃ out, withinCap cap (operation i) i.operands = (expectedError cap i).getD (okay out) := by
  rcases Nat.lt_or_ge cap i.operands.length with hcap | hcap
  · exact ⟨[], by rw [withinCap_of_gt hcap, expectedError_of_gt hcap, Option.getD_some]⟩
  · rw [withinCap_of_le hcap]
    cases hlen : lengthError i with
    | some e =>
      rw [expectedError_of_lengthError_eq_some hcap hlen]
      exact ⟨[], operation_of_lengthError_eq_some hlen⟩
    | none =>
      rw [expectedError_of_lengthError_eq_none hcap hlen]
      exact operation_of_lengthError_eq_none hlen

/-! ### The statements -/

/-- Settles O31: capacity, length and groups are checked in the order of R97. -/
theorem firstErrorInOrderIsReported : Obligations.FirstErrorInOrderIsReported := by
  intro i s
  obtain ⟨out, hanswer⟩ := withinCap_operation_eq_expectedError Config.inCap i
  rw [exec_eq, hanswer]
  constructor
  · intro r hr
    rw [hr]
    rfl
  · intro hnone
    rw [hnone]
    exact ⟨out, rfl⟩

/-- Settles O34: every operation ends by putting its response, at least the three header bytes, in the port. -/
theorem operationsChangeOnlyThePort : Obligations.OperationsChangeOnlyThePort := by
  intro i s
  obtain ⟨r, hexec⟩ := exec_answers i
  have hheader : 3 ≤ r.bytes.length := by
    rw [length_responseBytes]
    exact Nat.le_add_right 3 _
  exact ⟨s.putResponse r, hexec s, rfl, hheader, rfl, rfl⟩

end Sys2Proof.Machine
end

