-- ==== Sys2Proof/Proofs/ResetAndHazards.lean ====
section
/-! SUPPORT. A run that stops after some steps, and the requests a reset or the host cuts short (R107, R109, R112,
R113). -/

namespace Sys2Proof.Machine

/-- A run whose first step answers goes on from there. -/
theorem run_succ_of_step_eq_next {s u : State} (h : step s = .next u) (n : Nat) :
    Host.Core.run core (n + 1) s = Host.Core.run core n u := by
  have hcore : core.step s = .next u := h
  simp only [Host.Core.run, hcore]

/-- A run whose first step faults stops with that fault. -/
theorem run_succ_of_step_eq_fault {s : State} {f : Fault} (h : step s = .fault f) (n : Nat) :
    Host.Core.run core (n + 1) s = .fault f := by
  have hcore : core.step s = .fault f := h
  simp only [Host.Core.run, hcore]

/-- What a run does after its first `m` steps is what a run from their last state does, a stop included. -/
theorem RunsTo.run_add {m : Nat} {s t : State} (h : RunsTo m s t) (n : Nat) :
    Host.Core.run core (m + n) s = Host.Core.run core n t := by
  induction m generalizing s with
  | zero => rw [Nat.zero_add, runsTo_zero_iff.mp h]
  | succ m ih =>
    obtain ⟨u, hstep, hrest⟩ := runsTo_succ_iff.mp h
    rw [Nat.add_right_comm, run_succ_of_step_eq_next hstep]
    exact ih hrest

/-- Every proper prefix of a whole request is open: it is a prefix of what stands before the last byte (R28). -/
theorem requestOpen_take_of_whole {request : List Byte} {k : Nat} (hw : WholeRequest request)
    (hk : k < request.length) : RequestOpen (request.take k) := by
  obtain rfl | ⟨front, b, rfl⟩ := List.eq_nil_or_concat' request
  · exact nomatch hw
  · have hle : k ≤ front.length := Nat.lt_succ_iff.mp (hk.trans_eq List.length_append)
    rw [List.take_append_of_le_length hle]
    apply requestOpen_of_append (bs := front.drop k)
    rw [List.take_append_drop]
    exact requestOpen_of_whole_append_byte hw

/-- A proper prefix of a whole request, written into an idle unit, stays in `rx` with no response (R112). -/
theorem runsTo_writes_of_partial {s : State} {request : List Byte} {k : Nat} {evs : List PortEvent} (hidle : s.Idle)
    (hw : WholeRequest request) (hk : k < request.length) (hp : s.pending = (request.take k).map .write ++ evs) :
    RunsTo k s { s with rx := request.take k, pending := evs } := by
  obtain ⟨hrx, htx⟩ := hidle
  have hreceived : s.rx ++ request.take k = request.take k := by rw [hrx, List.nil_append]
  have hrun := runsTo_writes_of_open hp htx (hreceived.symm ▸ requestOpen_take_of_whole hw hk)
  rwa [hreceived, List.length_take_of_le hk.le] at hrun

/-! ### The statements -/

/-- Settles O44: the reset leaves the unit idle, and a transaction begins there as at any other time. -/
theorem resetResynchronises : Obligations.ResetResynchronises := by
  intro request s evs hw hp
  have hreset : RunsTo 1 s { s with rx := [], tx := [], pending := transaction request ++ evs } :=
    runsTo_succ (step_reset hp) (runsTo_zero _)
  exact hreset.trans (runsTo_transaction ⟨rfl, rfl⟩ hw rfl)

/-- Settles O45: a proper prefix of the request leaves it open, and the read that follows finds `tx` empty. -/
theorem partialRequestGetsNoResponse : Obligations.PartialRequestGetsNoResponse := by
  intro request k s evs hidle hw hk hp
  have hwrites := runsTo_writes_of_partial hidle hw hk hp
  obtain ⟨_, htx⟩ := hidle
  have hread : step { s with rx := request.take k, pending := .read :: evs } = .fault .readWithNoResponse :=
    step_read_of_empty rfl htx
  exact ⟨hwrites, (hwrites.run_add 1).trans (run_succ_of_step_eq_fault hread 0)⟩

end Sys2Proof.Machine
end
